-- ==== Sys2Proof/Word.lean ====
section
/-!
DEFINITION. The word types of EPC-AES128CBC (spec 00_scope.md R7, R8): a byte and a 32-bit bus word.
All values are unsigned and nothing sign-extends (R7).
-/

namespace Sys2Proof

/-- A byte, 0..255 (R8). -/
abbrev Byte := BitVec 8

/-- A bus word: 32 bits, bit 0 the least significant (R7). -/
abbrev Word := BitVec 32

end Sys2Proof
end

