-- ==== Sys2Proof/Syntax.lean ====
section
/-!
DEFINITION. The commands of EPC-AES128CBC, one constructor per row of spec/opcode_table.json (30_encoding.md R80, R81,
R83). Commands carry no immediate and no register field (R84); the row ILLEGAL keeps the two fields of the word, so
that no bit of it is dropped.
-/

namespace Sys2Proof

/-- A command word of `CMD`, decoded. -/
inductive Instr where
  /-- `NOP`, word 0x00000000 (R81, R183). -/
  | nop
  /-- `PAD`, word 0x00000001 (R81, R102). -/
  | pad
  /-- `ENCRYPT`, word 0x00000002 (R81, R161). -/
  | encrypt
  /-- `ZEROIZE`, word 0x00000003 (R81, R184). -/
  | zeroize
  /-- `ILLEGAL`, any word not matched by a row above (R83), with its fields `RSVD` (bits 31..8) and `OP` (bits 7..0). -/
  | illegal (rsvd : BitVec 24) (op : BitVec 8)
  deriving DecidableEq, Repr

end Sys2Proof
end

