-- ==== Sys2Proof/WellFormed.lean ====
section
/-!
DEFINITION. Which terms of `Instr` stand for a command word: an illegal command is one whose fields are not those of
the four rows above it (30_encoding.md R83).
-/

namespace Sys2Proof

/-- The fields of an illegal word: `RSVD` is not 0, or `RSVD` is 0 and `OP` is 0x04..0xFF (R83). -/
def illegalFields (rsvd : BitVec 24) (op : BitVec 8) : Bool :=
  decide (rsvd ≠ 0#24) || decide (4 ≤ op.toNat)

/-- A term that stands for some command word. -/
def Instr.wellFormed : Instr → Bool
  | .nop => true
  | .pad => true
  | .encrypt => true
  | .zeroize => true
  | .illegal rsvd op => illegalFields rsvd op

end Sys2Proof
end

