-- ==== Sys2Proof/Decode.lean ====
section
/-!
DEFINITION. Decoding and encoding of command words (spec 30_encoding.md R80 to R83, opcode_table.json). The command
reaches the engine as the one 32-bit word that was written to `CMD` (R180), so decoding is a function of that word; it
is total on all 2^32 words, and a word that is no command is rejected under the name of its row, ILLEGAL.
-/

namespace Sys2Proof

/-- The field `OP`, bits 7..0 of the command word (R80). -/
def opField (v : Word) : BitVec 8 := v.extractLsb' 0 8

/-- The field `RSVD`, bits 31..8 of the command word (R80). -/
def rsvdField (v : Word) : BitVec 24 := v.extractLsb' 8 24

/-- R82: the command a word stands for. -/
def decode (v : Word) : Instr :=
  if rsvdField v ≠ 0#24 then .illegal (rsvdField v) (opField v)
  else if opField v = 0x00#8 then .nop
  else if opField v = 0x01#8 then .pad
  else if opField v = 0x02#8 then .encrypt
  else if opField v = 0x03#8 then .zeroize
  else .illegal (rsvdField v) (opField v)

/-- R80, R81: the word of a command. -/
def encode : Instr → Word
  | .nop => 0x00000000#32
  | .pad => 0x00000001#32
  | .encrypt => 0x00000002#32
  | .zeroize => 0x00000003#32
  | .illegal rsvd op => rsvd ++ op

/-- The number of bits of every command (R80, R85). -/
def commandBits : Nat := 32

/-- The command this decoder reads from a command of `nbits` bits `w`, numbered as spec/opcode_table.json numbers
them; every bit above `nbits` is 0. There is no command longer than 32 bits (R80), so nothing is read from one. -/
def decodeTableWord (nbits w : Nat) : Option Instr :=
  if nbits ≤ commandBits then some (decode (BitVec.ofNat 32 (w % 2 ^ nbits))) else none

end Sys2Proof
end

