-- ==== Sys2Proof/Config.lean ====
section
/-!
DEFINITION. The parameters of the block (spec 00_scope.md R6). The fixed ones have the values of R6's table.
Of the OPEN ones, `EPC_BASE` is an opaque constant here; `LAT_CMD` has no constant, because every interleaving is a
value of the `host` list of the state (log 1); `BUS_ERROR_RESPONSE` has none, because a bus error is recorded as such
and in no particular form (log 6).
-/

namespace Sys2Proof.Config

/-- `BLOCK_SIZE`, 16 bytes (R6). -/
@[simp] abbrev blockSize : Nat := 16

/-- `MAX_MESSAGE_LEN`, 256 bytes (R6, C1, C2). -/
@[simp] abbrev maxMessageLen : Nat := 256

/-- `MAX_MSG = MAX_MESSAGE_LEN - BLOCK_SIZE`, 240 bytes (R6, C1). -/
@[simp] abbrev maxMsg : Nat := 240

/-- `BUF_BYTES`, 256 bytes (R6, C2). -/
@[simp] abbrev bufBytes : Nat := 256

/-- `Nr`, the number of AES-128 rounds (R6, R120). -/
@[simp] abbrev rounds : Nat := 10

/-- The bus data width in bits (R6). -/
@[simp] abbrev busWidth : Nat := 32

/-- The size of the register region in bytes (R6, R50). -/
@[simp] abbrev regionBytes : Nat := 0x200

/-- The offset of the buffer window in the region (R50, R51). -/
@[simp] abbrev bufOffset : Nat := 0x100

/-- `EPC_BASE`, OPEN (R6, R50, U5): where the platform places the region on the host bus. No body: a statement that
mentions it holds under every base. -/
opaque epcBase : Nat

end Sys2Proof.Config
end

