-- ==== Sys2Proof/Machine/State.lean ====
section
/-!
DEFINITION. The state of EPC-AES128CBC: everything the table of 10_state.md R20 names, and two fields that are the
model's own (the host's side of the bus). The state is plain data.
-/

namespace Sys2Proof.Machine

/-- A 16-byte string: a cipher key, an IV, an AES block, a round key (R8, R24, R35). Element `n` is byte `n`. -/
abbrev Block := Vector Byte 16

/-- The 4 x 4 AES state `ST[r][c]`, row first (R128). -/
abbrev AesState := Vector (Vector Byte 4) 4

/-- The buffer `BUF[0..255]` (R28) as (index, byte) cells in canonical form: indices strictly rising, no listed byte
equal to what an unlisted index reads as (`Memory.wf`, `Memory.fill` in Ops.lean). -/
abbrev Memory := List Host.Cell

/-- `PHASE`, the position in the state machine (R23). -/
inductive Phase where
  /-- 0: inputs may be written; after reset and ZEROIZE. -/
  | idle
  /-- 1: PAD has validated and padded. -/
  | padded
  /-- 2: ENCRYPT has run; the buffer holds the ciphertext. -/
  | encrypted
  /-- 3: a command error was raised; left only by ZEROIZE or reset. -/
  | rejected
  deriving DecidableEq, Repr

/-- `ERR`, the code of the error that caused the current `REJECTED` phase (R30). The codes 7..15 are never produced
and have no constructor (R30, U8). -/
inductive ErrCode where
  /-- 0 `NONE`. -/
  | none
  /-- 1 `MSG_TOO_LONG`. -/
  | msgTooLong
  /-- 2 `KEY_MISSING`. -/
  | keyMissing
  /-- 3 `IV_MISSING`. -/
  | ivMissing
  /-- 4 `SEQUENCE`. -/
  | sequence
  /-- 5 `ILLEGAL_CMD`. -/
  | illegalCmd
  /-- 6 `CIPHER_SETUP`: reserved, produced by no rule (R204). -/
  | cipherSetup
  deriving DecidableEq, Repr

/-- One event of the interleaving of host and engine (R10), in the notation of 30_encoding.md R86. `off` is the byte
offset from `EPC_BASE`, `width` the width of the access in bits. -/
inductive HostEvent where
  /-- `R off`: the host reads (R56). -/
  | read (width off : Nat)
  /-- `W off, v`: the host writes (R57). For a width other than 32 the access is not performed (R52) and `v` is not
  looked at (log 18). -/
  | write (width off : Nat) (v : Word)
  /-- `STEP`: the engine takes its step here (R86, R181). -/
  | engineStep
  /-- The platform asserts the reset input (R230). -/
  | reset
  deriving DecidableEq, Repr

/-- What the host gets back from an access (R242): writes give nothing. -/
inductive BusResponse where
  /-- The value of an aligned 32-bit read (R56). -/
  | data (v : Word)
  /-- `BusError(off)` (R200): the access was not performed. How the host sees it is OPEN (`BUS_ERROR_RESPONSE`). -/
  | busError (off : Nat)
  deriving DecidableEq, Repr

/-- The state: the table of R20, then the host's side of the bus. -/
structure State where
  /-- `KEY[0..3]` (R24). -/
  key : Vector Word 4
  /-- `IV[0..3]` (R25). -/
  iv : Vector Word 4
  /-- `MSG_LEN` (R26). -/
  msgLen : Word
  /-- `DATA_LEN` (R27). -/
  dataLen : Word
  /-- `BUF[0..255]` (R28). -/
  buf : Memory
  /-- `PHASE` (R23). -/
  phase : Phase
  /-- `BUSY` (R32). -/
  busy : Bool
  /-- `ERR` (R30). -/
  err : ErrCode
  /-- `KEYW` (R31). -/
  keyw : BitVec 4
  /-- `IVW` (R31). -/
  ivw : BitVec 4
  /-- `PENDING` (R32). -/
  pending : Word
  /-- `RK[0..10]` (R34). -/
  rk : Vector Block 11
  /-- `CHAIN` (R35). -/
  chain : Block
  /-- `ST` (R36). -/
  st : AesState
  /-- The model's own: the events still to come, in the order the block receives them (R61; log 1). -/
  host : List HostEvent
  /-- The model's own: what the host got back so far, newest first (log 7). -/
  responses : List BusResponse
  deriving DecidableEq, Repr

/-- Reasons for the machine to stop. -/
inductive Fault where
  /-- Raised by the scheduler (Engine.lean), never by a command: the list of events asks for an engine step while
  `BUSY = 0`, but the step is enabled exactly when `BUSY = 1` (R181), so there is no such step. Safe: the model stops
  where the spec has no behaviour (log 3). -/
  | engineNotEnabled
  deriving DecidableEq, Repr

/-- Reasons for the model to give a step no meaning. -/
inductive Refusal where
  /-- Raised by an arm of `exec` that has no meaning yet. Safe. No arm of this model raises it. -/
  | notModelled (mnemonic : String)
  /-- Raised by a host access at an offset outside the 0x200-byte region: the block does not decode it and its
  behaviour belongs to the host platform (R50, U7: refuse). Safe (log 5). -/
  | outsideRegion (off : Nat)
  /-- Raised by ENCRYPT in `PADDED` when `DATA_LEN` is no multiple of 16 or is above 256: a state no run reaches (R37),
  to which the spec gives no result (U1: refuse). Safe (log 8). -/
  | paddedLengthBreach
  deriving DecidableEq, Repr

/-- The outcome of a command or of a step. -/
abbrev Result := Host.Outcome State Fault Refusal

/-- R20, R230: the machine right after reset. Every piece of state is 0; the host's side is empty. -/
def State.reset : State where
  key := Vector.replicate 4 0#32
  iv := Vector.replicate 4 0#32
  msgLen := 0#32
  dataLen := 0#32
  buf := []
  phase := .idle
  busy := false
  err := .none
  keyw := 0#4
  ivw := 0#4
  pending := 0#32
  rk := Vector.replicate 11 (Vector.replicate 16 0#8)
  chain := Vector.replicate 16 0#8
  st := Vector.replicate 4 (Vector.replicate 4 0#8)
  host := []
  responses := []

end Sys2Proof.Machine
end

