-- ==== Sys2Proof/Machine/Operands.lean ====
section
/-!
DEFINITION. Byte lanes of bus words, the bytes of the key and IV registers, and the register map (spec 10_state.md R24,
R25; 20_memory.md R50, R51, R53, R54). Commands have no operand fields (30_encoding.md R84): every operand is one of
these registers.
-/

namespace Sys2Proof.Machine

/-- R53, R54: byte lane `i` of a bus word, bits `[8i+7 : 8i]`. -/
def lane (v : Word) (i : Nat) : Byte := v.extractLsb' (8 * i) 8

/-- R56: the bus word of four bytes, the lowest-numbered one in the lowest lane. -/
def wordOfLanes (b0 b1 b2 b3 : Byte) : Word :=
  b0.setWidth 32 ||| b1.setWidth 32 <<< 8 ||| b2.setWidth 32 <<< 16 ||| b3.setWidth 32 <<< 24

/-- R53: the four bytes of a bus word in the order of their indices. -/
def lanes (v : Word) : List Byte := [lane v 0, lane v 1, lane v 2, lane v 3]

/-- R24, R25, R54: the 16 bytes held in four bus words, byte `4k + j` in lane `j` of word `k`. -/
def bytesOfWords (ws : Vector Word 4) : Block :=
  Vector.ofFn fun n => lane ws[n.val / 4] (n.val % 4)

/-- `key[0..15]`, the bytes of `KEY[0..3]` (R24). -/
def keyBytes (s : State) : Block := bytesOfWords s.key

/-- `iv[0..15]`, the bytes of `IV[0..3]` (R25). -/
def ivBytes (s : State) : Block := bytesOfWords s.iv

/-- R8: the byte-wise exclusive or of two 16-byte strings. -/
def xorBlock (a b : Block) : Block := Vector.ofFn fun n => a[n] ^^^ b[n]

/-- The 16 bytes at the head of a byte string (0 where the string is shorter, which no rule reads). -/
def blockOfBytes (p : List Byte) : Block := Vector.ofFn fun n => p.getD n.val 0#8

/-- What stands at an aligned offset of the region (R51). -/
inductive Register where
  /-- 0x000 `CMD`. -/
  | cmd
  /-- 0x004 `STATUS`. -/
  | status
  /-- 0x008 `MSG_LEN`. -/
  | msgLen
  /-- 0x00C `DATA_LEN`. -/
  | dataLen
  /-- 0x010 + 4k `KEY[k]`. -/
  | key (k : Fin 4)
  /-- 0x020 + 4k `IV[k]`. -/
  | iv (k : Fin 4)
  /-- 0x030..0x0FC, reserved (R59). -/
  | reserved
  /-- 0x100 + 4j `BUFW[j]`. -/
  | bufw (j : Fin 64)
  deriving DecidableEq, Repr

/-- R51: the register at an aligned offset below 0x200. -/
def registerAt (off : Nat) : Register :=
  if off = 0x000 then .cmd
  else if off = 0x004 then .status
  else if off = 0x008 then .msgLen
  else if off = 0x00C then .dataLen
  else if off < 0x020 then .key (Fin.ofNat 4 ((off - 0x010) / 4))
  else if off < 0x030 then .iv (Fin.ofNat 4 ((off - 0x020) / 4))
  else if off < 0x100 then .reserved
  else .bufw (Fin.ofNat 64 ((off - 0x100) / 4))

/-- R52: the access is 32 bits wide at an offset divisible by 4. -/
def validAccess (width off : Nat) : Bool :=
  decide (width = Config.busWidth) && decide (off % 4 = 0)

/-- R50: the offset in the region of an address of the host bus, none for an address the block does not decode. -/
def regionOffset (addr : Nat) : Option Nat :=
  if Config.epcBase ≤ addr ∧ addr < Config.epcBase + Config.regionBytes then some (addr - Config.epcBase) else none

end Sys2Proof.Machine
end

