-- ==== Sys2Proof/Machine/Ops.lean ====
section
/-!
DEFINITION. The named operations over the buffer and the registers: reading and writing bytes of `BUF`, erasing all
data state (43_control.md R184), raising a command error (60_exceptions.md R202) and the return from it (R184, R207),
the gate of the `REJECTED` phase (R182, R185), and the end of an engine step (R181).
-/

namespace Sys2Proof.Machine

/-- What an unlisted index of the buffer reads as: the reset value of `BUF` (R20, R230). -/
def Memory.fill : Byte := 0#8

/-- The byte at index `i` (R67). -/
def Memory.read : Memory → Nat → Byte
  | [], _ => Memory.fill
  | (a, b) :: m, i => if a = i then b else Memory.read m i

/-- The cell of a byte, dropped where it holds what an unlisted index reads as. -/
def Memory.cell (i : Nat) (v : Byte) (m : Memory) : Memory :=
  if v = Memory.fill then m else (i, v) :: m

/-- `BUF[i] <- v` (R67), keeping the canonical form. -/
def Memory.write : Memory → Nat → Byte → Memory
  | [], i, v => Memory.cell i v []
  | (a, b) :: m, i, v =>
    if i < a then Memory.cell i v ((a, b) :: m)
    else if i = a then Memory.cell i v m
    else (a, b) :: Memory.write m i v

/-- Canonical from index `lo` on: indices strictly rising, inside `BUF[0..255]`, no listed byte equal to `fill`. -/
def Memory.wfFrom : Nat → Memory → Bool
  | _, [] => true
  | lo, (a, b) :: m =>
    decide (lo ≤ a) && decide (a < Config.bufBytes) && decide (b ≠ Memory.fill) && Memory.wfFrom (a + 1) m

/-- The canonical form of the buffer. -/
def Memory.wf (m : Memory) : Bool := Memory.wfFrom 0 m

/-- The bytes `BUF[i .. i + n)`, in order. -/
def Memory.readBytes (m : Memory) (i : Nat) : Nat → List Byte
  | 0 => []
  | n + 1 => Memory.read m i :: Memory.readBytes m (i + 1) n

/-- `BUF[i .. i + len(p)) <- p`. -/
def Memory.writeBytes : Memory → Nat → List Byte → Memory
  | m, _, [] => m
  | m, i, b :: p => Memory.writeBytes (Memory.write m i b) (i + 1) p

/-- The block `BUF[i .. i + 16)`. -/
def Memory.readBlock (m : Memory) (i : Nat) : Block := blockOfBytes (Memory.readBytes m i Config.blockSize)

/-- `BUF[i .. i + 16) <- b`. -/
def Memory.writeBlock (m : Memory) (i : Nat) (b : Block) : Memory := Memory.writeBytes m i b.toList

/-- A key or IV register of four zero words. -/
def zeroWords : Vector Word 4 := Vector.replicate 4 0#32

/-- A 16-byte string of zeros. -/
def zeroBlock : Block := Vector.replicate 16 0#8

/-- An AES state of zeros. -/
def zeroAesState : AesState := Vector.replicate 4 (Vector.replicate 4 0#8)

/-- A key schedule of zeros. -/
def zeroRoundKeys : Vector Block 11 := Vector.replicate 11 zeroBlock

/-- R163: erase the key, the IV, their written masks, the key schedule, the chain value and the AES state. -/
def eraseKeyMaterial (s : State) : State :=
  { s with
    key := zeroWords
    iv := zeroWords
    keyw := 0#4
    ivw := 0#4
    rk := zeroRoundKeys
    chain := zeroBlock
    st := zeroAesState }

/-- R184 `Zeroise()`: erase every piece of data state. -/
def zeroise (s : State) : State :=
  { eraseKeyMaterial s with
    msgLen := 0#32
    dataLen := 0#32
    buf := [] }

/-- R202 `Reject(code)`: error entry, the one way a command error is taken. The engine step then clears `PENDING` and
`BUSY` (`retire`). -/
def reject (code : ErrCode) (s : State) : State :=
  { zeroise s with
    err := code
    phase := .rejected }

/-- R184, R207: what ZEROIZE does, and the only return from `REJECTED` other than reset. Nothing is restored. -/
def startNewRun (s : State) : State :=
  { zeroise s with
    err := .none
    phase := .idle }

/-- R182, R185: in `REJECTED` a command other than ZEROIZE has no effect at all. -/
def unlessRejected (s : State) (body : Result) : Result :=
  if s.phase = .rejected then .next s else body

/-- R181: the end of an engine step. -/
def retire (s : State) : State :=
  { s with
    pending := 0#32
    busy := false }

end Sys2Proof.Machine
end

