-- ==== Sys2Proof/Machine/Flags.lean ====
section
/-!
DEFINITION. The flags of the block, which are the fields of `STATUS` and nothing else (10_state.md R29 to R31, R38),
and the checks that PAD and ENCRYPT make on them (40_padder.md R102, 42_cbc.md R161, 60_exceptions.md R205).
-/

namespace Sys2Proof.Machine

/-- The two bits of `PHASE` (R23). -/
def phaseBits : Phase → BitVec 2
  | .idle => 0#2
  | .padded => 1#2
  | .encrypted => 2#2
  | .rejected => 3#2

/-- The four bits of `ERR` (R30). -/
def errBits : ErrCode → BitVec 4
  | .none => 0#4
  | .msgTooLong => 1#4
  | .keyMissing => 2#4
  | .ivMissing => 3#4
  | .sequence => 4#4
  | .illegalCmd => 5#4
  | .cipherSetup => 6#4

/-- The bit of `BUSY` (R32). -/
def busyBit (b : Bool) : BitVec 1 := BitVec.ofBool b

/-- R29: the value of `STATUS`. -/
def status (s : State) : Word :=
  s.ivw.setWidth 32 <<< 12 ||| s.keyw.setWidth 32 <<< 8 ||| (errBits s.err).setWidth 32 <<< 4
    ||| (phaseBits s.phase).setWidth 32 <<< 1 ||| (busyBit s.busy).setWidth 32

/-- R31: a written mask with bit `k` set. -/
def markWritten (mask : BitVec 4) (k : Fin 4) : BitVec 4 := mask ||| (1#4 <<< k.val)

/-- R31: all four words were written. -/
def complete (mask : BitVec 4) : Bool := decide (mask = 0xF#4)

/-- R102: the first error PAD raises, in the order of its checks (R205). -/
def padError (s : State) : Option ErrCode :=
  if s.phase ≠ .idle then some .sequence
  else if Config.maxMsg < s.msgLen.toNat then some .msgTooLong
  else if complete s.keyw = false then some .keyMissing
  else if complete s.ivw = false then some .ivMissing
  else none

/-- R161: the error ENCRYPT raises. -/
def encryptError (s : State) : Option ErrCode :=
  if s.phase ≠ .padded then some .sequence else none

/-- U1: `DATA_LEN` is a length that PAD cannot have set, because it is no multiple of 16 or exceeds the buffer. -/
def paddedLengthBreached (s : State) : Bool :=
  decide (s.dataLen.toNat % Config.blockSize ≠ 0) || decide (Config.bufBytes < s.dataLen.toNat)

end Sys2Proof.Machine
end

