-- ==== Sys2Proof/Machine/Bus.lean ====
section
/-!
DEFINITION. Host accesses (20_memory.md R50 to R60), the issue of a command (43_control.md R180) and the reset input
(70_reset_and_hazards.md R230).
-/

namespace Sys2Proof.Machine

/-- R56: the value of a register read that is not gated by `BUSY`. -/
def registerValue (r : Register) (s : State) : Word :=
  match r with
  | .cmd => 0#32
  | .status => status s
  | .msgLen => s.msgLen
  | .dataLen => s.dataLen
  | .key _ => 0#32
  | .iv _ => 0#32
  | .reserved => 0#32
  | .bufw j =>
    wordOfLanes (s.buf.read (4 * j.val)) (s.buf.read (4 * j.val + 1)) (s.buf.read (4 * j.val + 2))
      (s.buf.read (4 * j.val + 3))

/-- R56 `BusRead32(off)`: `STATUS` is never gated, every other offset reads 0 while `BUSY = 1` (R58). -/
def busRead32 (off : Nat) (s : State) : Word :=
  if registerAt off = .status then status s
  else if s.busy then 0#32
  else registerValue (registerAt off) s

/-- R180: command issue. No check of `v` is made. -/
def issueCommand (v : Word) (s : State) : State :=
  { s with
    busy := true
    pending := v }

/-- R57: a write to an input of the block takes effect in `IDLE` only. -/
def whenIdle (s t : State) : State := if s.phase = .idle then t else s

/-- R57: the effect of a register write that is not gated by `BUSY`. -/
def writeRegister (r : Register) (v : Word) (s : State) : State :=
  match r with
  | .cmd => issueCommand v s
  | .status => s
  | .msgLen => whenIdle s { s with msgLen := v }
  | .dataLen => s
  | .key k => whenIdle s { s with key := s.key.set k v, keyw := markWritten s.keyw k }
  | .iv k => whenIdle s { s with iv := s.iv.set k v, ivw := markWritten s.ivw k }
  | .reserved => s
  | .bufw j => whenIdle s { s with buf := s.buf.writeBytes (4 * j.val) (lanes v) }

/-- R57 `BusWrite32(off, v)`: every write is ignored while `BUSY = 1` (R58, R186). -/
def busWrite32 (off : Nat) (v : Word) (s : State) : State :=
  if s.busy then s else writeRegister (registerAt off) v s

/-- The host gets a response (R242). -/
def respond (r : BusResponse) (s : State) : State := { s with responses := r :: s.responses }

/-- R50, R52, R200: an access outside the region is not the block's, an access of the wrong width or alignment is a bus
error that changes no state of the block, and any other access is performed. -/
def access (width off : Nat) (s performed : State) : Result :=
  if Config.regionBytes ≤ off then .refused (.outsideRegion off)
  else if validAccess width off = false then .next (respond (.busError off) s)
  else .next performed

/-- A host read. -/
def hostRead (width off : Nat) (s : State) : Result :=
  access width off s (respond (.data (busRead32 off s)) s)

/-- A host write. -/
def hostWrite (width off : Nat) (v : Word) (s : State) : Result :=
  access width off s (busWrite32 off v s)

/-- R230: the reset input. Every piece of the block's state takes its reset value, a pending command is discarded; the
host's side of the bus is not the block's (log 9). -/
def assertReset (s : State) : State :=
  { State.reset with
    host := s.host
    responses := s.responses }

end Sys2Proof.Machine
end

