-- ==== Sys2Proof/Machine/Aes.lean ====
section
/-!
DEFINITION. The AES-128 engine (41_aes_engine.md): arithmetic in GF(2^8), the S-box, the key expansion, the round
transformations and the forward cipher. None of these is a command; ENCRYPT uses them (R136).
-/

namespace Sys2Proof.Machine

/-- An AES word `(a0, a1, a2, a3)` (R125). It is no bus word and has no endianness. -/
abbrev AesWord := Vector Byte 4

/-- R122: multiplication by `x`, reduced by 0x11B. -/
def xtime (b : Byte) : Byte :=
  let t : BitVec 9 := b.setWidth 9 <<< 1
  (if b[7] then t ^^^ 0x11B#9 else t).setWidth 8

/-- R122: the loop of the multiplication, over the bits of `b` from bit `i` on. -/
def gfMulLoop (b : Byte) : (steps i : Nat) → (a r : Byte) → Byte
  | 0, _, _, r => r
  | steps + 1, i, a, r => gfMulLoop b steps (i + 1) (xtime a) (if b.getLsbD i then r ^^^ a else r)

/-- R122: multiplication `a • b` in GF(2^8). -/
def gfMul (a b : Byte) : Byte := gfMulLoop b 8 0 a 0#8

/-- R123: the multiplicative inverse, with 0 for 0. The nonzero elements form a group of order 255, so the inverse of
`x` is its power 254, the product of the powers 2, 4, ..., 128. -/
def gfInv (x : Byte) : Byte :=
  let x2 := gfMul x x
  let x4 := gfMul x2 x2
  let x8 := gfMul x4 x4
  let x16 := gfMul x8 x8
  let x32 := gfMul x16 x16
  let x64 := gfMul x32 x32
  let x128 := gfMul x64 x64
  gfMul x2 (gfMul x4 (gfMul x8 (gfMul x16 (gfMul x32 (gfMul x64 x128)))))

/-- R123: the affine map `A` over GF(2), with `c = 0x63`. -/
def affineMap (b : Byte) : Byte :=
  b ^^^ b.rotateRight 4 ^^^ b.rotateRight 5 ^^^ b.rotateRight 6 ^^^ b.rotateRight 7 ^^^ 0x63#8

/-- R124: the S-box table, row `x[7:4]`, column `x[3:0]`. -/
def sboxTable : List (List Nat) :=
  [[0x63, 0x7c, 0x77, 0x7b, 0xf2, 0x6b, 0x6f, 0xc5, 0x30, 0x01, 0x67, 0x2b, 0xfe, 0xd7, 0xab, 0x76],
   [0xca, 0x82, 0xc9, 0x7d, 0xfa, 0x59, 0x47, 0xf0, 0xad, 0xd4, 0xa2, 0xaf, 0x9c, 0xa4, 0x72, 0xc0],
   [0xb7, 0xfd, 0x93, 0x26, 0x36, 0x3f, 0xf7, 0xcc, 0x34, 0xa5, 0xe5, 0xf1, 0x71, 0xd8, 0x31, 0x15],
   [0x04, 0xc7, 0x23, 0xc3, 0x18, 0x96, 0x05, 0x9a, 0x07, 0x12, 0x80, 0xe2, 0xeb, 0x27, 0xb2, 0x75],
   [0x09, 0x83, 0x2c, 0x1a, 0x1b, 0x6e, 0x5a, 0xa0, 0x52, 0x3b, 0xd6, 0xb3, 0x29, 0xe3, 0x2f, 0x84],
   [0x53, 0xd1, 0x00, 0xed, 0x20, 0xfc, 0xb1, 0x5b, 0x6a, 0xcb, 0xbe, 0x39, 0x4a, 0x4c, 0x58, 0xcf],
   [0xd0, 0xef, 0xaa, 0xfb, 0x43, 0x4d, 0x33, 0x85, 0x45, 0xf9, 0x02, 0x7f, 0x50, 0x3c, 0x9f, 0xa8],
   [0x51, 0xa3, 0x40, 0x8f, 0x92, 0x9d, 0x38, 0xf5, 0xbc, 0xb6, 0xda, 0x21, 0x10, 0xff, 0xf3, 0xd2],
   [0xcd, 0x0c, 0x13, 0xec, 0x5f, 0x97, 0x44, 0x17, 0xc4, 0xa7, 0x7e, 0x3d, 0x64, 0x5d, 0x19, 0x73],
   [0x60, 0x81, 0x4f, 0xdc, 0x22, 0x2a, 0x90, 0x88, 0x46, 0xee, 0xb8, 0x14, 0xde, 0x5e, 0x0b, 0xdb],
   [0xe0, 0x32, 0x3a, 0x0a, 0x49, 0x06, 0x24, 0x5c, 0xc2, 0xd3, 0xac, 0x62, 0x91, 0x95, 0xe4, 0x79],
   [0xe7, 0xc8, 0x37, 0x6d, 0x8d, 0xd5, 0x4e, 0xa9, 0x6c, 0x56, 0xf4, 0xea, 0x65, 0x7a, 0xae, 0x08],
   [0xba, 0x78, 0x25, 0x2e, 0x1c, 0xa6, 0xb4, 0xc6, 0xe8, 0xdd, 0x74, 0x1f, 0x4b, 0xbd, 0x8b, 0x8a],
   [0x70, 0x3e, 0xb5, 0x66, 0x48, 0x03, 0xf6, 0x0e, 0x61, 0x35, 0x57, 0xb9, 0x86, 0xc1, 0x1d, 0x9e],
   [0xe1, 0xf8, 0x98, 0x11, 0x69, 0xd9, 0x8e, 0x94, 0x9b, 0x1e, 0x87, 0xe9, 0xce, 0x55, 0x28, 0xdf],
   [0x8c, 0xa1, 0x89, 0x0d, 0xbf, 0xe6, 0x42, 0x68, 0x41, 0x99, 0x2d, 0x0f, 0xb0, 0x54, 0xbb, 0x16]]

/-- R124 `S(x)`, by the table. -/
def sbox (x : Byte) : Byte :=
  BitVec.ofNat 8 ((sboxTable.getD (x.toNat / 16) []).getD (x.toNat % 16) 0)

/-- R125: `^` on AES words. -/
def xorWord (a b : AesWord) : AesWord := Vector.ofFn fun i => a[i] ^^^ b[i]

/-- R125 `RotWord`. -/
def rotWord (w : AesWord) : AesWord := #v[w[1], w[2], w[3], w[0]]

/-- R125 `SubWord`. -/
def subWord (w : AesWord) : AesWord := Vector.ofFn fun i => sbox w[i]

/-- R126: `rc[j]`, with `rc[1] = {01}` and `rc[j] = xtime(rc[j-1])`. There is no `rc[0]`; 0 stands there and no rule
reads it. -/
def rc : Nat → Byte
  | 0 => 0x00#8
  | 1 => 0x01#8
  | j + 2 => xtime (rc (j + 1))

/-- R126 `Rcon[j]`. -/
def rcon (j : Nat) : AesWord := #v[rc j, 0x00#8, 0x00#8, 0x00#8]

/-- R127: `w[i]`, from `w[i-4]` and `w[i-1]`, for `i` in 4..43. -/
def scheduleWord (i : Nat) (back4 back1 : AesWord) : AesWord :=
  xorWord back4 (if i % 4 = 0 then xorWord (subWord (rotWord back1)) (rcon (i / 4)) else back1)

/-- The AES word at place `i` of a list (zeros beyond its end, which no rule reads). -/
def wordAt (ws : List AesWord) (i : Nat) : AesWord := ws.getD i (Vector.replicate 4 0x00#8)

/-- R127: the loop of the key expansion, appending `steps` words to `w[0..i)`. -/
def expandLoop : (steps i : Nat) → List AesWord → List AesWord
  | 0, _, ws => ws
  | steps + 1, i, ws =>
    expandLoop steps (i + 1) (ws ++ [scheduleWord i (wordAt ws (i - 4)) (wordAt ws (i - 1))])

/-- R127: `w[0..3]`, the key itself. -/
def keyWords (key : Block) : List AesWord :=
  [#v[key[0], key[1], key[2], key[3]], #v[key[4], key[5], key[6], key[7]],
   #v[key[8], key[9], key[10], key[11]], #v[key[12], key[13], key[14], key[15]]]

/-- R127: `w[0..43]`. -/
def scheduleWords (key : Block) : List AesWord := expandLoop 40 4 (keyWords key)

/-- R127 `KeyExpansion`, as the round keys `RK[r] = w[4r] || w[4r+1] || w[4r+2] || w[4r+3]`. -/
def keyExpansion (key : Block) : Vector Block 11 :=
  let ws := scheduleWords key
  Vector.ofFn fun r => Vector.ofFn fun n => (wordAt ws (4 * r.val + n.val / 4))[n.val % 4]

/-- R128: the state loaded from a block, column by column. -/
def loadState (b : Block) : AesState := Vector.ofFn fun r => Vector.ofFn fun c => b[r.val + 4 * c.val]

/-- R128: the block stored from a state, column by column. -/
def storeState (s : AesState) : Block := Vector.ofFn fun n => s[n.val % 4][n.val / 4]

/-- R129 `AddRoundKey`, with the round key of the round. -/
def addRoundKey (rk : Block) (s : AesState) : AesState :=
  Vector.ofFn fun r => Vector.ofFn fun c => s[r][c] ^^^ rk[r.val + 4 * c.val]

/-- R130 `SubBytes`. -/
def subBytes (s : AesState) : AesState := Vector.ofFn fun r => Vector.ofFn fun c => sbox s[r][c]

/-- R131 `ShiftRows`: row `r` rotated left by `r` positions. -/
def shiftRows (s : AesState) : AesState :=
  Vector.ofFn fun r => Vector.ofFn fun c => s[r][(c.val + r.val) % 4]

/-- R132: `MixColumns` on one column. -/
def mixColumn (s : AesWord) : AesWord :=
  #v[gfMul 0x02#8 s[0] ^^^ gfMul 0x03#8 s[1] ^^^ s[2] ^^^ s[3],
     s[0] ^^^ gfMul 0x02#8 s[1] ^^^ gfMul 0x03#8 s[2] ^^^ s[3],
     s[0] ^^^ s[1] ^^^ gfMul 0x02#8 s[2] ^^^ gfMul 0x03#8 s[3],
     gfMul 0x03#8 s[0] ^^^ s[1] ^^^ s[2] ^^^ gfMul 0x02#8 s[3]]

/-- Column `c` of the state, one AES word (R128). -/
def column (s : AesState) (c : Fin 4) : AesWord := Vector.ofFn fun r => s[r][c]

/-- R132 `MixColumns`. -/
def mixColumns (s : AesState) : AesState :=
  Vector.ofFn fun r => Vector.ofFn fun c => (mixColumn (column s c))[r]

/-- R133: one of the rounds 1..9. -/
def aesRound (rk : Block) (s : AesState) : AesState := addRoundKey rk (mixColumns (shiftRows (subBytes s)))

/-- R133: the final round, without `MixColumns`. -/
def aesFinalRound (rk : Block) (s : AesState) : AesState := addRoundKey rk (shiftRows (subBytes s))

/-- R133: the AES state after all rounds, for the block `b`. -/
def aesRounds (rk : Vector Block 11) (b : Block) : AesState :=
  let s0 := addRoundKey rk[0] (loadState b)
  let s9 := [rk[1], rk[2], rk[3], rk[4], rk[5], rk[6], rk[7], rk[8], rk[9]].foldl (fun s k => aesRound k s) s0
  aesFinalRound rk[10] s9

/-- R133 `AES_Encrypt(RK, in)`. -/
def aesEncrypt (rk : Vector Block 11) (b : Block) : Block := storeState (aesRounds rk b)

end Sys2Proof.Machine
end

