-- ==== Sys2Proof/Machine/Cbc.lean ====
section
/-!
DEFINITION. CBC on byte strings (42_cbc.md R160) and the command ENCRYPT (R161 to R166).
-/

namespace Sys2Proof.Machine

/-- R160: the ciphertext blocks of plaintext blocks, from the running chain value. -/
def cbcChain (rk : Vector Block 11) : Block → List Block → List Block
  | _, [] => []
  | chain, p :: ps =>
    let c := aesEncrypt rk (xorBlock p chain)
    c :: cbcChain rk c ps

/-- R11: the first `n` blocks of a byte string. -/
def blocksOf : Nat → List Byte → List Block
  | 0, _ => []
  | n + 1, p => blockOfBytes p :: blocksOf n (p.drop Config.blockSize)

/-- R160 `CBC_Encrypt(key, iv, P)`, for `P` of a length divisible by 16. -/
def cbcEncrypt (key iv : Block) (p : List Byte) : List Byte :=
  (cbcChain (keyExpansion key) iv (blocksOf (p.length / Config.blockSize) p)).flatMap Vector.toList

/-- R161: what is loaded before the loop, `RK` and `CHAIN`. -/
def beginCbc (s : State) : State :=
  { s with
    rk := keyExpansion (keyBytes s)
    chain := ivBytes s }

/-- R161: the loop body for block `i`, in place. The AES state is left in `ST`. -/
def encryptBlock (s : State) (i : Nat) : State :=
  let x := xorBlock (s.buf.readBlock (Config.blockSize * i)) s.chain
  let st := aesRounds s.rk x
  let c := storeState st
  { s with
    st := st
    buf := s.buf.writeBlock (Config.blockSize * i) c
    chain := c }

/-- R161: the loop over `n` blocks from block `i` on, in order. -/
def encryptBlocks : (n i : Nat) → State → State
  | 0, _, s => s
  | n + 1, i, s => encryptBlocks n (i + 1) (encryptBlock s i)

/-- R161: the effect of an ENCRYPT that raises no error, the erasure of R163 included. -/
def encryptBuffer (s : State) : State :=
  { eraseKeyMaterial (encryptBlocks (s.dataLen.toNat / Config.blockSize) 0 (beginCbc s)) with
    phase := .encrypted }

/-- ENCRYPT (R161), under the gate of R182. A breach of the length contract has no result (U1). -/
def execEncrypt (s : State) : Result :=
  unlessRejected s <|
    match encryptError s with
    | some code => .next (reject code s)
    | none => if paddedLengthBreached s then .refused .paddedLengthBreach else .next (encryptBuffer s)

end Sys2Proof.Machine
end

