-- ==== Sys2Proof/Machine/Control.lean ====
section
/-!
DEFINITION. The commands NOP and ZEROIZE and the words that are no command (43_control.md R182 to R185, 30_encoding.md
R83).
-/

namespace Sys2Proof.Machine

/-- NOP (R183): no effect, in every phase. -/
def execNop (s : State) : Result := .next s

/-- ZEROIZE (R184): legal in every phase, `REJECTED` included (R182). -/
def execZeroize (s : State) : Result := .next (startNewRun s)

/-- An illegal word (R83, R182): `Reject(ILLEGAL_CMD)` outside `REJECTED`. No error records the word (R201). -/
def execIllegal (_rsvd : BitVec 24) (_op : BitVec 8) (s : State) : Result :=
  unlessRejected s (.next (reject .illegalCmd s))

end Sys2Proof.Machine
end

