-- ==== Sys2Proof/Machine/Padder.lean ====
section
/-!
DEFINITION. The padder: PKCS#7 on byte strings (40_padder.md R100, R101) and the command PAD (R102 to R104).
-/

namespace Sys2Proof.Machine

/-- R100: the number of padding bytes for a message of `len` bytes, 1..16. -/
def padLen (len : Nat) : Nat := Config.blockSize - len % Config.blockSize

/-- R100: the padding itself, `padLen` bytes each of value `padLen`. -/
def padding (len : Nat) : List Byte := List.replicate (padLen len) (BitVec.ofNat 8 (padLen len))

/-- R100 `PKCS7(d)`. -/
def pkcs7 (d : List Byte) : List Byte := d ++ padding d.length

/-- R102: the effect of a PAD that raises no error. -/
def padBuffer (s : State) : State :=
  { s with
    buf := s.buf.writeBytes s.msgLen.toNat (padding s.msgLen.toNat)
    dataLen := s.msgLen + BitVec.ofNat 32 (padLen s.msgLen.toNat)
    phase := .padded }

/-- PAD (R102), under the gate of R182. -/
def execPad (s : State) : Result :=
  unlessRejected s <|
    match padError s with
    | some code => .next (reject code s)
    | none => .next (padBuffer s)

end Sys2Proof.Machine
end

