-- ==== Sys2Proof/Machine/Dispatch.lean ====
section
/-!
DEFINITION. Dispatch of a decoded command to its meaning (43_control.md R182).
-/

namespace Sys2Proof.Machine

def exec (i : Instr) (s : State) : Host.Outcome State Fault Refusal :=
  match i with
  | .nop => Sys2Proof.Machine.execNop s
  | .pad => Sys2Proof.Machine.execPad s
  | .encrypt => Sys2Proof.Machine.execEncrypt s
  | .zeroize => Sys2Proof.Machine.execZeroize s
  | .illegal rsvd op => Sys2Proof.Machine.execIllegal rsvd op s

end Sys2Proof.Machine
end

