-- ==== Sys2Proof/Machine/Engine.lean ====
section
/-!
DEFINITION. The engine step (43_control.md R181) and the interleaving of host and engine (00_scope.md R10).
-/

namespace Sys2Proof.Machine

/-- Sequencing of outcomes: what `f` makes of a next state; a stop stays as it is. -/
def andThen (r : Result) (f : State → State) : Result :=
  match r with
  | .next s => .next (f s)
  | .fault e => .fault e
  | .refused e => .refused e

/-- R181: one engine step, enabled exactly when `BUSY = 1`. -/
def runEngine (s : State) : Result :=
  if s.busy then andThen (exec (decode s.pending) s) retire else .fault .engineNotEnabled

/-- One event of the interleaving. -/
def runEvent (e : HostEvent) (s : State) : Result :=
  match e with
  | .read width off => hostRead width off s
  | .write width off v => hostWrite width off v s
  | .engineStep => runEngine s
  | .reset => .next (assertReset s)

/-- R10, R61: the next event happens; when the host has none left, a pending command is executed (R181: the engine step
is always eventually taken), and without one the block keeps its state (R215). -/
def advance (s : State) : Result :=
  match s.host with
  | [] => if s.busy then runEngine s else .next s
  | e :: rest => runEvent e { s with host := rest }

/-- The state in which the very next step is the engine's, on the command word `v`. -/
def placeCommand (v : Word) (s : State) : State :=
  { s with
    busy := true
    pending := v
    host := .engineStep :: s.host }

/-- The word of a command of `nbits` bits `w`, the bits above `nbits` zero. -/
def tableWord (nbits w : Nat) : Word := BitVec.ofNat 32 (w % 2 ^ nbits)

end Sys2Proof.Machine
end

