-- ==== Sys2Proof/Machine/Step.lean ====
section
/-!
DEFINITION. The step of the machine, and a command placed where the next step takes it.
-/

namespace Sys2Proof.Machine

/-- One step: the next event of the interleaving of host and engine (R10). -/
def step (s : State) : Host.Outcome State Fault Refusal := advance s

/-- `s` with the command of `nbits` bits `w` pending and the engine scheduled next (log 11). -/
def State.withFetchWord (s : State) (nbits w : Nat) : State := placeCommand (tableWord nbits w) s

end Sys2Proof.Machine
end

