-- ==== Sys2Proof/Safety.lean ====
section
/-!
DEFINITION. What claims are stated in: the invariant of 10_state.md R37, the end of a run (70_reset_and_hazards.md
R241), and the byte strings of the glossary (00_scope.md R11).
-/

namespace Sys2Proof.Machine

/-- R37, with the canonical form of the buffer. -/
structure State.Inv (s : State) : Prop where
  /-- R37 item 1. -/
  idle : s.phase = .idle → s.dataLen = 0#32 ∧ s.err = .none
  /-- R37 item 2. -/
  padded : s.phase = .padded →
    s.keyw = 0xF#4 ∧ s.ivw = 0xF#4 ∧ s.msgLen.toNat ≤ 240 ∧
      s.dataLen.toNat = s.msgLen.toNat + (16 - s.msgLen.toNat % 16) ∧ s.err = .none
  /-- R37 item 3. -/
  encrypted : s.phase = .encrypted →
    s.key = zeroWords ∧ s.iv = zeroWords ∧ s.keyw = 0#4 ∧ s.ivw = 0#4 ∧
      s.dataLen.toNat % 16 = 0 ∧ 16 ≤ s.dataLen.toNat ∧ s.dataLen.toNat ≤ 256 ∧ s.err = .none
  /-- R37 item 4. -/
  rejected : s.phase = .rejected →
    s.key = zeroWords ∧ s.iv = zeroWords ∧ s.keyw = 0#4 ∧ s.ivw = 0#4 ∧ s.msgLen = 0#32 ∧ s.dataLen = 0#32 ∧
      (∀ i, s.buf.read i = 0#8) ∧ 1 ≤ (errBits s.err).toNat ∧ (errBits s.err).toNat ≤ 5
  /-- R37 item 5. -/
  pendingClear : s.busy = false → s.pending = 0#32
  /-- R37 item 6. -/
  hiddenClear : s.rk = zeroRoundKeys ∧ s.chain = zeroBlock ∧ s.st = zeroAesState
  /-- The buffer is in canonical form: its list of cells is determined by its bytes. -/
  bufCanonical : s.buf.wf = true

/-- R241: the run has ended. -/
def State.runEnded (s : State) : Bool :=
  !s.busy && (decide (s.phase = .encrypted) || decide (s.phase = .rejected))

/-- R11: the `PlaintextMessage`, `BUF[0 .. MSG_LEN)`. -/
def State.message (s : State) : List Byte := s.buf.readBytes 0 s.msgLen.toNat

/-- R11: the `PaddedBuffer` after PAD, the `Ciphertext` after ENCRYPT, `BUF[0 .. DATA_LEN)`. -/
def State.dataBytes (s : State) : List Byte := s.buf.readBytes 0 s.dataLen.toNat

/-- The two states agree on all of the host's side of the bus. -/
def State.sameHostSide (s t : State) : Prop := t.host = s.host ∧ t.responses = s.responses

end Sys2Proof.Machine
end

