-- ==== Sys2Proof/Certificates/Slice0/Obligations.lean ====
section
/-!
DEFINITION. The statements about EPC-AES128CBC for the provers. Each docstring names the rules of spec/ it formalises;
where a clause rests on a choice of the model, the docstring names the log entry.
-/

open Sys2Proof
open Sys2Proof.Machine

/-! ## Encoding (30_encoding.md) -/

/-- R81, R83: the words of the four commands, and illegal words with `OP` outside 0..3 and with `RSVD` not 0. -/
def Obligations.SampleWordsDecode : Prop :=
  decode 0x00000000#32 = .nop ∧
  decode 0x00000001#32 = .pad ∧
  decode 0x00000002#32 = .encrypt ∧
  decode 0x00000003#32 = .zeroize ∧
  decode 0x00000004#32 = .illegal 0x000000#24 0x04#8 ∧
  decode 0x000000FF#32 = .illegal 0x000000#24 0xFF#8 ∧
  decode 0x00000104#32 = .illegal 0x000001#24 0x04#8 ∧
  decode 0x80000001#32 = .illegal 0x800000#24 0x01#8

/-- R81: each command has exactly one word, the word of its row, and no other word is that command. -/
def Obligations.CommandWordsExactly : Prop :=
  ∀ v : Word,
    (decode v = .nop ↔ v = 0x00000000#32) ∧
    (decode v = .pad ↔ v = 0x00000001#32) ∧
    (decode v = .encrypt ↔ v = 0x00000002#32) ∧
    (decode v = .zeroize ↔ v = 0x00000003#32)

/-- R80 to R83: decoding the word of a well-formed command gives the command back, with every field. -/
def Obligations.DecodeOfEncode : Prop :=
  ∀ i : Instr, i.wellFormed = true → decode (encode i) = i

/-- R82, R83: every one of the 2^32 words decodes to a well-formed command, whose word it is. -/
def Obligations.EncodeOfDecode : Prop :=
  ∀ v : Word, (decode v).wellFormed = true ∧ encode (decode v) = v

/-- R83: the illegal words are exactly those with `RSVD ≠ 0`, and those with `RSVD = 0` and `OP` in 0x04..0xFF;
executing one outside `REJECTED` raises `Reject(ILLEGAL_CMD)`. -/
def Obligations.IllegalWordsExactly : Prop :=
  (∀ v : Word, (∃ rsvd op, decode v = .illegal rsvd op) ↔
    (v.extractLsb' 8 24 ≠ 0#24 ∨ (v.extractLsb' 8 24 = 0#24 ∧ 0x04 ≤ (v.extractLsb' 0 8).toNat))) ∧
  (∀ (v : Word) (rsvd : BitVec 24) (op : BitVec 8) (s : State), decode v = .illegal rsvd op →
    s.phase ≠ .rejected → exec (decode v) s = .next (reject .illegalCmd s))

/-! ## The step (43_control.md, 00_scope.md R10) -/

/-- R181: the engine step executes the command that `PENDING` decodes to, then clears `PENDING` and `BUSY`; it is taken
at a scheduling point `STEP`, and when the host has no further event. A refusal of the command is the refusal of the
step, at both places. The list of events is the model's (log 1): the clauses are about the two places at which it lets
the engine step come, and say nothing about a list whose next event is the host's. -/
def Obligations.StepRunsPendingCommand : Prop :=
  (∀ s t : State, s.host = [] → s.busy = true → exec (decode s.pending) s = .next t →
    step s = .next { t with pending := 0#32, busy := false }) ∧
  (∀ (s t : State) (rest : List HostEvent), s.host = .engineStep :: rest → s.busy = true →
    exec (decode s.pending) { s with host := rest } = .next t →
    step s = .next { t with pending := 0#32, busy := false }) ∧
  (∀ (s : State) (r : Refusal), s.host = [] → s.busy = true → exec (decode s.pending) s = .refused r →
    step s = .refused r) ∧
  (∀ (s : State) (r : Refusal) (rest : List HostEvent), s.host = .engineStep :: rest → s.busy = true →
    exec (decode s.pending) { s with host := rest } = .refused r → step s = .refused r)

/-- A placed command is what the very next step runs: the decoded instruction's `exec`, then the end of the engine step
(R181; log 11). -/
def Obligations.PlacedCommandRunsNext : Prop :=
  ∀ (s t : State) (nbits w : Nat) (i : Instr), decodeTableWord nbits w = some i →
    exec i { s with busy := true, pending := BitVec.ofNat 32 (w % 2 ^ nbits) } = .next t →
    step (s.withFetchWord nbits w) = .next { t with pending := 0#32, busy := false }

/-- R32, R181: the engine step is enabled exactly when `BUSY = 1`. With `BUSY = 0` a scheduled engine step has no
behaviour (log 3, the model's stop), and with no event left the block keeps its state (log 2, R215). -/
def Obligations.EngineStepNeedsBusy : Prop :=
  (∀ (s : State) (rest : List HostEvent), s.host = .engineStep :: rest → s.busy = false →
    step s = .fault .engineNotEnabled) ∧
  (∀ s : State, s.host = [] → s.busy = false → step s = .next s)

/-- R181, R239: with a pending command and no further host access, the engine step is taken and completes, from every
state of the invariant. The list of events, empty here, is the model's (log 1): the statement says nothing about other
interleavings. The invariant is R37's with the canonical form of the buffer, the model's (log 13). -/
def Obligations.PendingCommandCompletes : Prop :=
  ∀ s : State, s.Inv → s.host = [] → s.busy = true →
    ∃ t, step s = .next t ∧ t.busy = false ∧ t.pending = 0#32 ∧ t.host = [] ∧ t.responses = s.responses

/-! ## Bus reads (20_memory.md R52 to R60) -/

/-- R29: the fields of `STATUS`, every bit of the word, with the codes of `PHASE` (R23) and of `ERR` (R30). -/
def Obligations.StatusFields : Prop :=
  ∀ s : State,
    (status s).extractLsb' 0 1 = (if s.busy then 1#1 else 0#1) ∧
    (status s).extractLsb' 1 2 =
      (if s.phase = .idle then 0#2 else if s.phase = .padded then 1#2 else if s.phase = .encrypted then 2#2
        else 3#2) ∧
    (status s).extractLsb' 3 1 = 0#1 ∧
    (status s).extractLsb' 4 4 =
      (if s.err = .none then 0#4 else if s.err = .msgTooLong then 1#4 else if s.err = .keyMissing then 2#4
        else if s.err = .ivMissing then 3#4 else if s.err = .sequence then 4#4 else if s.err = .illegalCmd then 5#4
        else 6#4) ∧
    (status s).extractLsb' 8 4 = s.keyw ∧
    (status s).extractLsb' 12 4 = s.ivw ∧
    (status s).extractLsb' 16 16 = 0#16

/-- R58: while `BUSY = 1` every read of an offset other than `STATUS` returns 0, every write, to `CMD` too, is ignored,
and a `STATUS` read returns its true value, with `BUSY = 1` and the phase. -/
def Obligations.BusyHidesTheBlock : Prop :=
  (∀ (s : State) (off : Nat) (rest : List HostEvent), s.host = .read 32 off :: rest → s.busy = true →
    off < 0x200 → off % 4 = 0 → off ≠ 0x004 →
    step s = .next { s with host := rest, responses := .data 0#32 :: s.responses }) ∧
  (∀ (s : State) (off : Nat) (v : Word) (rest : List HostEvent), s.host = .write 32 off v :: rest → s.busy = true →
    off < 0x200 → off % 4 = 0 → step s = .next { s with host := rest }) ∧
  (∀ (s : State) (rest : List HostEvent), s.host = .read 32 0x004 :: rest → s.busy = true →
    step s = .next { s with host := rest, responses := .data (status s) :: s.responses } ∧
    (status s).extractLsb' 0 1 = 1#1 ∧ (status s).extractLsb' 1 2 = phaseBits s.phase)

/-- R56: what an aligned 32-bit read of each offset returns, and that it changes nothing of the block. -/
def Obligations.BusReadValues : Prop :=
  ∀ (s : State) (off : Nat) (rest : List HostEvent), s.host = .read 32 off :: rest → off < 0x200 → off % 4 = 0 →
    step s = .next { s with
      host := rest
      responses := .data (
        if off = 0x004 then status s
        else if s.busy then 0#32
        else if off = 0x008 then s.msgLen
        else if off = 0x00C then s.dataLen
        else if off < 0x100 then 0#32
        else (s.buf.read (off - 0x100)).setWidth 32 ||| (s.buf.read (off - 0x100 + 1)).setWidth 32 <<< 8
          ||| (s.buf.read (off - 0x100 + 2)).setWidth 32 <<< 16
          ||| (s.buf.read (off - 0x100 + 3)).setWidth 32 <<< 24) :: s.responses }

/-- R53: a buffer word read holds byte `4j + i` of the buffer in its lane `i`. -/
def Obligations.BufferWordLanes : Prop :=
  ∀ (s : State) (j : Fin 64) (i : Fin 4), s.busy = false →
    (busRead32 (0x100 + 4 * j.val) s).extractLsb' (8 * i.val) 8 = s.buf.read (4 * j.val + i.val)

/-- R52, R200: an access in the region of a width other than 32 bits, or at an offset not divisible by 4, is not
performed: bus error, and no state of the block changes, whatever the phase and `BUSY`. -/
def Obligations.BadAccessIsBusError : Prop :=
  (∀ (s : State) (width off : Nat) (rest : List HostEvent), s.host = .read width off :: rest → off < 0x200 →
    (width ≠ 32 ∨ off % 4 ≠ 0) →
    step s = .next { s with host := rest, responses := .busError off :: s.responses }) ∧
  (∀ (s : State) (width off : Nat) (v : Word) (rest : List HostEvent), s.host = .write width off v :: rest →
    off < 0x200 → (width ≠ 32 ∨ off % 4 ≠ 0) →
    step s = .next { s with host := rest, responses := .busError off :: s.responses })

/-- R200: an access to a register of the right width and alignment never produces a bus error, in any phase, busy or
not: it completes, and no response is a bus error that was not there before. -/
def Obligations.GoodAccessIsNoBusError : Prop :=
  (∀ (s : State) (off : Nat) (rest : List HostEvent), s.host = .read 32 off :: rest → off < 0x200 → off % 4 = 0 →
    ∃ (t : State) (v : Word), step s = .next t ∧ t.responses = .data v :: s.responses) ∧
  (∀ (s : State) (off : Nat) (v : Word) (rest : List HostEvent), s.host = .write 32 off v :: rest → off < 0x200 →
    off % 4 = 0 → ∃ t : State, step s = .next t ∧ t.responses = s.responses)

/-- R50, U7: an access outside the region is not the block's; the model refuses it by name (log 5). An address of the
host bus is in the region exactly when it is `EPC_BASE + off` with `off < 0x200`, under every base. -/
def Obligations.OutsideTheRegionRefused : Prop :=
  (∀ (s : State) (width off : Nat) (rest : List HostEvent), s.host = .read width off :: rest → 0x200 ≤ off →
    step s = .refused (.outsideRegion off)) ∧
  (∀ (s : State) (width off : Nat) (v : Word) (rest : List HostEvent), s.host = .write width off v :: rest →
    0x200 ≤ off → step s = .refused (.outsideRegion off)) ∧
  (∀ addr off : Nat, regionOffset addr = some off ↔ (addr = Config.epcBase + off ∧ off < 0x200))

/-- R24, R25, R56: no read returns anything of the key, the IV or the hidden state: two states that differ in these
alone give the host the same answer. -/
def Obligations.ReadsRevealNoKey : Prop :=
  ∀ (s t : State) (key iv : Vector Word 4) (rk : Vector Block 11) (chain : Block) (st : AesState)
    (width off : Nat) (rest : List HostEvent), s.host = .read width off :: rest → step s = .next t →
    step { s with key := key, iv := iv, rk := rk, chain := chain, st := st } =
      .next { t with key := key, iv := iv, rk := rk, chain := chain, st := st }

/-! ## Bus writes (20_memory.md R57 to R59, 43_control.md R180) -/

/-- R180, R186: a `CMD` write with `BUSY = 0` sets `PENDING` and `BUSY` and nothing else, in every phase and for every
word; with `BUSY = 1` it is ignored. -/
def Obligations.CmdWriteIssues : Prop :=
  (∀ (s : State) (v : Word) (rest : List HostEvent), s.host = .write 32 0x000 v :: rest → s.busy = false →
    step s = .next { s with host := rest, busy := true, pending := v }) ∧
  (∀ (s : State) (v : Word) (rest : List HostEvent), s.host = .write 32 0x000 v :: rest → s.busy = true →
    step s = .next { s with host := rest })

/-- R57: a write to each input register in `IDLE` with `BUSY = 0`. -/
def Obligations.IdleWriteEffects : Prop :=
  ∀ (s : State) (v : Word) (rest : List HostEvent), s.busy = false → s.phase = .idle →
    (s.host = .write 32 0x008 v :: rest → step s = .next { s with host := rest, msgLen := v }) ∧
    (∀ k : Fin 4, s.host = .write 32 (0x010 + 4 * k.val) v :: rest →
      step s = .next { s with host := rest, key := s.key.set k v, keyw := s.keyw ||| (1#4 <<< k.val) }) ∧
    (∀ k : Fin 4, s.host = .write 32 (0x020 + 4 * k.val) v :: rest →
      step s = .next { s with host := rest, iv := s.iv.set k v, ivw := s.ivw ||| (1#4 <<< k.val) })

/-- R57, R53: a buffer word write in `IDLE` with `BUSY = 0` stores its four lanes in the four bytes, leaves every other
byte as it was, and changes nothing else. -/
def Obligations.BufferWriteStoresLanes : Prop :=
  ∀ (s : State) (v : Word) (j : Fin 64) (rest : List HostEvent), s.busy = false → s.phase = .idle → s.buf.wf = true →
    s.host = .write 32 (0x100 + 4 * j.val) v :: rest →
    ∃ t, step s = .next t ∧ t = { s with host := rest, buf := t.buf } ∧
      (∀ i : Fin 4, t.buf.read (4 * j.val + i.val) = v.extractLsb' (8 * i.val) 8) ∧
      (∀ n, n < 4 * j.val ∨ 4 * j.val + 4 ≤ n → t.buf.read n = s.buf.read n)

/-- R57, R235: outside `IDLE` a write to `MSG_LEN`, `KEY`, `IV` or the buffer is ignored without an error; a write to
the read-only and the reserved offsets is ignored in every phase (R57, R59). -/
def Obligations.IgnoredWrites : Prop :=
  (∀ (s : State) (off : Nat) (v : Word) (rest : List HostEvent), s.host = .write 32 off v :: rest →
    s.phase ≠ .idle → off < 0x200 → off % 4 = 0 → off ≠ 0x000 → step s = .next { s with host := rest }) ∧
  (∀ (s : State) (off : Nat) (v : Word) (rest : List HostEvent), s.host = .write 32 off v :: rest →
    (off = 0x004 ∨ off = 0x00C ∨ (0x030 ≤ off ∧ off < 0x100 ∧ off % 4 = 0)) → step s = .next { s with host := rest })

/-- R59: reserved offsets read as 0 and ignore writes, in every phase, without a bus error. -/
def Obligations.ReservedOffsets : Prop :=
  (∀ (s : State) (off : Nat) (rest : List HostEvent), s.host = .read 32 off :: rest → 0x030 ≤ off → off ≤ 0x0FC →
    off % 4 = 0 → step s = .next { s with host := rest, responses := .data 0#32 :: s.responses }) ∧
  (∀ (s : State) (off : Nat) (v : Word) (rest : List HostEvent), s.host = .write 32 off v :: rest → 0x030 ≤ off →
    off ≤ 0x0FC → off % 4 = 0 → step s = .next { s with host := rest })

/-- R61: a read returns the value left by the write before it: a buffer word written in `IDLE` is read back, and so is
`MSG_LEN`. -/
def Obligations.ReadAfterWrite : Prop :=
  (∀ (s : State) (v : Word) (j : Fin 64) (rest : List HostEvent), s.busy = false → s.phase = .idle →
    s.buf.wf = true →
    s.host = .write 32 (0x100 + 4 * j.val) v :: .read 32 (0x100 + 4 * j.val) :: rest →
    ∃ t u, step s = .next t ∧ step t = .next u ∧ u.responses = .data v :: s.responses) ∧
  (∀ (s : State) (v : Word) (rest : List HostEvent), s.busy = false → s.phase = .idle →
    s.host = .write 32 0x008 v :: .read 32 0x008 :: rest →
    ∃ t u, step s = .next t ∧ step t = .next u ∧ u.responses = .data v :: s.responses)

/-- R54, R24, R25: byte `4k + i` of the key and of the IV is lane `i` of word `k`, and the worked example. -/
def Obligations.KeyByteOrder : Prop :=
  (∀ (s : State) (k i : Fin 4), (keyBytes s)[4 * k.val + i.val] = s.key[k].extractLsb' (8 * i.val) 8) ∧
  (∀ (s : State) (k i : Fin 4), (ivBytes s)[4 * k.val + i.val] = s.iv[k].extractLsb' (8 * i.val) 8) ∧
  (∀ s : State, s.key = #v[0x03020100#32, 0x07060504#32, 0x0B0A0908#32, 0x0F0E0D0C#32] →
    keyBytes s = Vector.ofFn fun n => BitVec.ofNat 8 n.val)

/-- R38, R57: no access of the host writes `PHASE`, `ERR`, `DATA_LEN` or the hidden state. -/
def Obligations.AccessesKeepPhaseAndErr : Prop :=
  ∀ (s t : State) (e : HostEvent) (rest : List HostEvent), s.host = e :: rest → e ≠ .engineStep → e ≠ .reset →
    step s = .next t →
    t.phase = s.phase ∧ t.err = s.err ∧ t.dataLen = s.dataLen ∧ t.rk = s.rk ∧ t.chain = s.chain ∧ t.st = s.st

/-- R24, R25: outside `IDLE` the key and the IV cannot change but by being erased: a step leaves them as they were, or
zero. -/
def Obligations.KeyImmutableAfterPad : Prop :=
  ∀ s t : State, s.phase ≠ .idle → step s = .next t →
    (t.key = s.key ∧ t.iv = s.iv ∧ t.keyw = s.keyw ∧ t.ivw = s.ivw) ∨
    (t.key = zeroWords ∧ t.iv = zeroWords ∧ t.keyw = 0#4 ∧ t.ivw = 0#4)

/-! ## Errors and their return (60_exceptions.md) -/

/-- R202: what error entry leaves: every piece of data state 0, `ERR` the code, `PHASE` `REJECTED`; `BUSY` and `PENDING`
are left to the end of the engine step. -/
def Obligations.RejectErasesEverything : Prop :=
  ∀ (code : ErrCode) (s : State),
    reject code s = { s with
      key := Vector.replicate 4 0#32
      iv := Vector.replicate 4 0#32
      keyw := 0#4
      ivw := 0#4
      msgLen := 0#32
      dataLen := 0#32
      buf := []
      rk := Vector.replicate 11 (Vector.replicate 16 0#8)
      chain := Vector.replicate 16 0#8
      st := Vector.replicate 4 (Vector.replicate 4 0#8)
      err := code
      phase := .rejected } ∧
    ∀ i, (reject code s).buf.read i = 0#8

/-- R205: the one error a command reports, in the order of priority. -/
def Obligations.ErrorPriority : Prop :=
  (∀ (s : State) (i : Instr), s.phase = .rejected → i ≠ .zeroize → exec i s = .next s) ∧
  (∀ (s : State) (rsvd : BitVec 24) (op : BitVec 8), s.phase ≠ .rejected →
    exec (.illegal rsvd op) s = .next (reject .illegalCmd s)) ∧
  (∀ s : State, s.phase = .padded ∨ s.phase = .encrypted → exec .pad s = .next (reject .sequence s)) ∧
  (∀ s : State, s.phase = .idle ∨ s.phase = .encrypted → exec .encrypt s = .next (reject .sequence s)) ∧
  (∀ s : State, s.phase = .idle → 240 < s.msgLen.toNat → exec .pad s = .next (reject .msgTooLong s)) ∧
  (∀ s : State, s.phase = .idle → s.msgLen.toNat ≤ 240 → s.keyw ≠ 0xF#4 →
    exec .pad s = .next (reject .keyMissing s)) ∧
  (∀ s : State, s.phase = .idle → s.msgLen.toNat ≤ 240 → s.keyw = 0xF#4 → s.ivw ≠ 0xF#4 →
    exec .pad s = .next (reject .ivMissing s))

/-- R204: `CIPHER_SETUP` is never raised: the next state of a step holds that code only if the state before held it. -/
def Obligations.CipherSetupNeverRaised : Prop :=
  ∀ s t : State, step s = .next t → t.err = .cipherSetup → s.err = .cipherSetup

/-- R185: in `REJECTED` a command word other than `0x00000003` has no effect; the engine step only ends the command. The
list of events is the model's (log 1): the two step clauses are for the two places at which it lets the engine step
come, at the end of the list and at a scheduling point. -/
def Obligations.RejectedIgnoresOtherWords : Prop :=
  ∀ s : State, s.phase = .rejected → s.pending ≠ 0x00000003#32 →
    exec (decode s.pending) s = .next s ∧
    (s.host = [] → s.busy = true → step s = .next { s with pending := 0#32, busy := false }) ∧
    (∀ rest, s.host = .engineStep :: rest → s.busy = true →
      step s = .next { s with host := rest, pending := 0#32, busy := false })

/-- R207, R208: the only ways out of `REJECTED` are ZEROIZE (the pending word exactly `0x00000003`, `BUSY = 1`, an
engine step) and reset; on every other step the phase and the first error code are kept. -/
def Obligations.OnlyZeroizeOrResetLeaveRejected : Prop :=
  ∀ s t : State, s.phase = .rejected → step s = .next t →
    (t.phase = .rejected ∧ t.err = s.err) ∨
    (t.phase = .idle ∧ t.err = .none ∧ (∃ rest, s.host = .reset :: rest)) ∨
    (t.phase = .idle ∧ t.err = .none ∧ s.busy = true ∧ s.pending = 0x00000003#32 ∧
      (s.host = [] ∨ ∃ rest, s.host = .engineStep :: rest))

/-! ## The commands -/

/-- R183: NOP, word 0x00000000, has no effect, in every phase; the engine step only ends the command, and R183's worked
example. The list of events is the model's (log 1): the two step clauses are for the two places at which it lets the
engine step come, at the end of the list and at a scheduling point. -/
def Obligations.NopHasNoEffect : Prop :=
  decode 0x00000000#32 = .nop ∧
  (∀ s : State, exec .nop s = .next s) ∧
  (∀ s : State, s.host = [] → s.busy = true → s.pending = 0x00000000#32 →
    step s = .next { s with pending := 0#32, busy := false } ∧
    (status s = 0x0000FF01#32 → status { s with pending := 0#32, busy := false } = 0x0000FF00#32)) ∧
  (∀ (s : State) (rest : List HostEvent), s.host = .engineStep :: rest → s.busy = true → s.pending = 0x00000000#32 →
    step s = .next { s with host := rest, pending := 0#32, busy := false })

/-- R184: ZEROIZE, word 0x00000003, in every phase, leaves the reset state, but for what the engine step is about to
clear and the host's side. The list of events is the model's (log 1), and so are the answers (log 7): the two step
clauses are for the two places at which the list lets the engine step come, at its end and at a scheduling point. -/
def Obligations.ZeroizeStartsNewRun : Prop :=
  decode 0x00000003#32 = .zeroize ∧
  (∀ s : State, exec .zeroize s = .next { State.reset with
    busy := s.busy
    pending := s.pending
    host := s.host
    responses := s.responses }) ∧
  (∀ s : State, s.host = [] → s.busy = true → s.pending = 0x00000003#32 →
    step s = .next { State.reset with responses := s.responses }) ∧
  (∀ (s : State) (rest : List HostEvent), s.host = .engineStep :: rest → s.busy = true → s.pending = 0x00000003#32 →
    step s = .next { State.reset with host := rest, responses := s.responses })

/-- R83, R202: an illegal word outside `REJECTED` is rejected with `ILLEGAL_CMD`. -/
def Obligations.IllegalWordRejects : Prop :=
  ∀ (rsvd : BitVec 24) (op : BitVec 8) (s : State), s.phase ≠ .rejected →
    ∃ t, exec (.illegal rsvd op) s = .next t ∧ t.phase = .rejected ∧ t.err = .illegalCmd ∧
      t.key = zeroWords ∧ t.iv = zeroWords ∧ t.keyw = 0#4 ∧ t.ivw = 0#4 ∧ t.msgLen = 0#32 ∧ t.dataLen = 0#32 ∧
      t.rk = zeroRoundKeys ∧ t.chain = zeroBlock ∧ t.st = zeroAesState ∧
      t.busy = s.busy ∧ t.pending = s.pending ∧ s.sameHostSide t ∧ (∀ i, t.buf.read i = 0#8)

/-- R102, R103: PAD in `IDLE`, with at most 240 message bytes and a complete key and IV, completes: it writes `padLen`
bytes of value `padLen` after the message and no other byte, sets `DATA_LEN` and `PHASE`, and changes nothing else. -/
def Obligations.PadWritesThePadding : Prop :=
  ∀ s : State, s.phase = .idle → s.msgLen.toNat ≤ 240 → s.keyw = 0xF#4 → s.ivw = 0xF#4 →
    ∃ t, exec .pad s = .next t ∧
      t = { s with buf := t.buf, dataLen := t.dataLen, phase := .padded } ∧
      t.dataLen.toNat = s.msgLen.toNat + (16 - s.msgLen.toNat % 16) ∧
      t.dataLen.toNat ≤ 256 ∧
      (∀ i, s.msgLen.toNat ≤ i → i < t.dataLen.toNat →
        t.buf.read i = BitVec.ofNat 8 (16 - s.msgLen.toNat % 16)) ∧
      (∀ i, i < s.msgLen.toNat ∨ t.dataLen.toNat ≤ i → t.buf.read i = s.buf.read i)

/-- R161 to R164: ENCRYPT in `PADDED` with a length that is a multiple of 16 and at most 256 completes: the data bytes
become `CBC_Encrypt` of what they were under the key and the IV, the bytes beyond them and both lengths are kept, the
key material is erased, the phase is `ENCRYPTED`, and nothing else changes. PAD sets the lengths 16 to 256 alone; the
hypotheses also admit `DATA_LEN = 0`, which no run reaches (R37) and for which the loop of R161 running zero times is the
model's choice (log 8). The canonical form of the buffer is the model's (log 13). -/
def Obligations.EncryptIsCbc : Prop :=
  ∀ s : State, s.phase = .padded → s.dataLen.toNat % 16 = 0 → s.dataLen.toNat ≤ 256 → s.buf.wf = true →
    ∃ t, exec .encrypt s = .next t ∧
      t = { s with
        buf := t.buf
        key := Vector.replicate 4 0#32
        iv := Vector.replicate 4 0#32
        keyw := 0#4
        ivw := 0#4
        rk := Vector.replicate 11 (Vector.replicate 16 0#8)
        chain := Vector.replicate 16 0#8
        st := Vector.replicate 4 (Vector.replicate 4 0#8)
        phase := .encrypted } ∧
      t.dataBytes = cbcEncrypt (keyBytes s) (ivBytes s) s.dataBytes ∧
      (∀ i, s.dataLen.toNat ≤ i → t.buf.read i = s.buf.read i)

/-- U1, log 8: in `PADDED` with a `DATA_LEN` that is no multiple of 16, or that exceeds the buffer, ENCRYPT is refused;
the invariant R37 excludes both. -/
def Obligations.EncryptLengthBreachRefused : Prop :=
  (∀ s : State, s.phase = .padded → (s.dataLen.toNat % 16 ≠ 0 ∨ 256 < s.dataLen.toNat) →
    exec .encrypt s = .refused .paddedLengthBreach) ∧
  (∀ s : State, s.Inv → s.phase = .padded → s.dataLen.toNat % 16 = 0 ∧ 16 ≤ s.dataLen.toNat ∧ s.dataLen.toNat ≤ 256)

/-- R163: after an ENCRYPT outside `REJECTED`, on the success path and on the failure path, the key, the IV, their
masks, the key schedule, the chain value and the AES state are zero. -/
def Obligations.EncryptErasesKeyMaterial : Prop :=
  ∀ s t : State, s.phase ≠ .rejected → exec .encrypt s = .next t →
    t.key = zeroWords ∧ t.iv = zeroWords ∧ t.keyw = 0#4 ∧ t.ivw = 0#4 ∧
      t.rk = zeroRoundKeys ∧ t.chain = zeroBlock ∧ t.st = zeroAesState

/-- R165: a key and an IV serve one ENCRYPT: after one the phase is `ENCRYPTED` and a second one is rejected with
`SEQUENCE`. -/
def Obligations.SecondEncryptRejected : Prop :=
  ∀ s t : State, s.phase = .padded → exec .encrypt s = .next t →
    t.phase = .encrypted ∧ exec .encrypt t = .next (reject .sequence t)

/-- R2: PAD and then ENCRYPT compute `CBC_Encrypt(K, IV, PKCS7(M))` for the key, the IV and the message of the inputs.
The canonical form of the buffer is the model's (log 13). -/
def Obligations.PadThenEncryptIsCbcOfPkcs7 : Prop :=
  ∀ s : State, s.phase = .idle → s.msgLen.toNat ≤ 240 → s.keyw = 0xF#4 → s.ivw = 0xF#4 → s.buf.wf = true →
    ∃ t u, exec .pad s = .next t ∧ t.dataBytes = pkcs7 s.message ∧ exec .encrypt t = .next u ∧
      u.phase = .encrypted ∧ u.dataBytes = cbcEncrypt (keyBytes s) (ivBytes s) (pkcs7 s.message)

/-- R23: the legal transitions of the phase, for every command. -/
def Obligations.LegalPhaseTransitions : Prop :=
  ∀ (i : Instr) (s t : State), exec i s = .next t →
    (s.phase = .idle ∧ i = .pad ∧ t.phase = .padded) ∨
    (s.phase = .padded ∧ i = .encrypt ∧ t.phase = .encrypted) ∨
    (i = .zeroize ∧ t.phase = .idle) ∨
    (s.phase ≠ .rejected ∧ i ≠ .nop ∧ i ≠ .zeroize ∧ t.phase = .rejected ∧ t.err ≠ .none) ∨
    (i = .nop ∧ t = s) ∨
    (s.phase = .rejected ∧ i ≠ .zeroize ∧ t = s)

/-- Every command leaves the host's side, `BUSY` and `PENDING` alone: the last two are the engine step's (R181). -/
def Obligations.CommandsKeepTheHostSide : Prop :=
  ∀ (i : Instr) (s t : State), exec i s = .next t →
    s.sameHostSide t ∧ t.busy = s.busy ∧ t.pending = s.pending

/-! ## Reset and the invariant -/

/-- R230, R231: the state after reset, and the reset input: every piece of state of the block is 0 in every state,
a pending command is discarded, and `STATUS` reads 0. That the host's side is kept is the model's choice (log 9). -/
def Obligations.ResetClearsEverything : Prop :=
  (State.reset.phase = .idle ∧ State.reset.busy = false ∧ State.reset.pending = 0#32 ∧ State.reset.err = .none ∧
    State.reset.keyw = 0#4 ∧ State.reset.ivw = 0#4 ∧ State.reset.key = Vector.replicate 4 0#32 ∧
    State.reset.iv = Vector.replicate 4 0#32 ∧ State.reset.msgLen = 0#32 ∧ State.reset.dataLen = 0#32 ∧
    (∀ i, State.reset.buf.read i = 0#8) ∧ State.reset.rk = Vector.replicate 11 (Vector.replicate 16 0#8) ∧
    State.reset.chain = Vector.replicate 16 0#8 ∧
    State.reset.st = Vector.replicate 4 (Vector.replicate 4 0#8) ∧ status State.reset = 0x00000000#32) ∧
  (∀ (s : State) (rest : List HostEvent), s.host = .reset :: rest →
    step s = .next { State.reset with host := rest, responses := s.responses })

/-- R37, with the canonical form of the buffer (the model's, log 13): the invariant holds at reset, whatever the host is
about to do and has been answered. -/
def Obligations.ResetMeetsInvariant : Prop :=
  ∀ (es : List HostEvent) (rs : List BusResponse), ({ State.reset with host := es, responses := rs } : State).Inv

/-- R37, with the canonical form of the buffer (the model's, log 13): every step keeps the invariant. -/
def Obligations.StepKeepsInvariant : Prop :=
  ∀ s t : State, s.Inv → step s = .next t → t.Inv

/-- R37: the invariant holds in every state reachable from reset, under every interleaving of host and engine. `Inv`
includes the canonical form of the buffer, which is the model's (log 13), and an interleaving is the model's list of
events (log 1), arbitrary here. -/
def Obligations.ReachableStatesMeetInvariant : Prop :=
  ∀ (es : List HostEvent) (n : Nat) (s : State),
    Host.Core.run core n { State.reset with host := es } = .next s → s.Inv

/-- Every step keeps the canonical form of the buffer, from every state that has it, whatever its phase (log 13). -/
def Obligations.StepKeepsBufferCanonical : Prop :=
  ∀ s t : State, s.buf.wf = true → step s = .next t → t.buf.wf = true

/-- R161, R204: from the invariant no command stops: every one completes with a next state that meets the invariant
but for `BUSY` and `PENDING`, which the engine step clears. -/
def Obligations.EveryCommandCompletes : Prop :=
  ∀ (i : Instr) (s : State), s.Inv → ∃ t, exec i s = .next t ∧ (retire t).Inv

/-- R241: when a run has ended in `REJECTED`, every data register is zero; when it has ended in `ENCRYPTED`, the key
and the IV are zero. -/
def Obligations.RunEndLeavesNoSecret : Prop :=
  ∀ s : State, s.Inv → s.runEnded = true →
    s.key = zeroWords ∧ s.iv = zeroWords ∧ s.rk = zeroRoundKeys ∧ s.chain = zeroBlock ∧ s.st = zeroAesState ∧
    (s.phase = .encrypted ∨
      (s.phase = .rejected ∧ s.msgLen = 0#32 ∧ s.dataLen = 0#32 ∧ s.buf = [] ∧ s.err ≠ .none))

/-! ## The functions (40_padder.md, 41_aes_engine.md, 42_cbc.md) -/

/-- R100, R101: the range of the padding, and the length and the bytes of `PKCS7(d)`. -/
def Obligations.PaddingRange : Prop :=
  ∀ d : List Byte, d.length ≤ 240 →
    1 ≤ padLen d.length ∧ padLen d.length ≤ 16 ∧
    (d.length % 16 = 0 → pkcs7 d = d ++ List.replicate 16 0x10#8) ∧
    pkcs7 d = d ++ List.replicate (16 - d.length % 16) (BitVec.ofNat 8 (16 - d.length % 16)) ∧
    (pkcs7 d).length = (d.length / 16 + 1) * 16 ∧ (pkcs7 d).length = (d.length + 1 + 15) / 16 * 16 ∧
    16 ≤ (pkcs7 d).length ∧ (pkcs7 d).length ≤ 256

/-- The source's property on R100: the last byte counts the padding, so removing that many bytes gives the message
back. -/
def Obligations.UnpadOfPkcs7 : Prop :=
  ∀ d : List Byte, ∃ v : Byte, (pkcs7 d).getLast? = some v ∧ 1 ≤ v.toNat ∧ v.toNat ≤ 16 ∧
    (pkcs7 d).take ((pkcs7 d).length - v.toNat) = d ∧
    (pkcs7 d).drop ((pkcs7 d).length - v.toNat) = List.replicate v.toNat v

/-- R123, R124: the table is the affine map of the inverse, for every byte, and the inverse is one. -/
def Obligations.SboxTableIsAffineOfInverse : Prop :=
  (∀ x : Byte, sbox x = affineMap (gfInv x)) ∧
  (∀ x : Byte, x ≠ 0x00#8 → gfMul x (gfInv x) = 0x01#8) ∧ gfInv 0x00#8 = 0x00#8 ∧
  (∀ (b : Byte) (i : Fin 8), (affineMap b).getLsbD i.val =
    (b.getLsbD i.val ^^ b.getLsbD ((i.val + 4) % 8) ^^ b.getLsbD ((i.val + 5) % 8) ^^ b.getLsbD ((i.val + 6) % 8)
      ^^ b.getLsbD ((i.val + 7) % 8) ^^ (0x63#8).getLsbD i.val))

/-- R121, R122: multiplication distributes over the addition of the field in both operands, `{01}` is neutral,
`{02} • b = xtime(b)` and `{03} • b = xtime(b) ^ b`, and the examples. -/
def Obligations.GfMulIsBilinear : Prop :=
  (∀ a b c : Byte, gfMul (a ^^^ b) c = gfMul a c ^^^ gfMul b c) ∧
  (∀ a b c : Byte, gfMul a (b ^^^ c) = gfMul a b ^^^ gfMul a c) ∧
  (∀ a : Byte, gfMul 0x01#8 a = a ∧ gfMul 0x02#8 a = xtime a ∧ gfMul 0x03#8 a = xtime a ^^^ a) ∧
  xtime 0x57#8 = 0xae#8 ∧ gfMul 0x57#8 0x83#8 = 0xc1#8 ∧ gfMul 0x57#8 0x13#8 = 0xfe#8

/-- R125 to R127: the bytes of `RotWord`, `SubWord` and `^`, the table of `Rcon`, and the words of the key schedule: the
first four are the key, each later one is made from the ones before it. -/
def Obligations.KeyScheduleRecurrence : Prop :=
  (∀ (w : AesWord) (i : Fin 4), rotWord w = #v[w[1], w[2], w[3], w[0]] ∧ (subWord w)[i] = sbox w[i]) ∧
  (∀ (a b : AesWord) (i : Fin 4), (xorWord a b)[i] = a[i] ^^^ b[i]) ∧
  ((List.range' 1 10).map rcon = [0x01#8, 0x02#8, 0x04#8, 0x08#8, 0x10#8, 0x20#8, 0x40#8, 0x80#8, 0x1b#8, 0x36#8].map
    fun rc => #v[rc, 0x00#8, 0x00#8, 0x00#8]) ∧
  ∀ key : Block,
    (scheduleWords key).length = 44 ∧
    (∀ i j : Fin 4, (wordAt (scheduleWords key) i.val)[j] = key[4 * i.val + j.val]) ∧
    (∀ i, 4 ≤ i → i < 44 → wordAt (scheduleWords key) i =
      xorWord (wordAt (scheduleWords key) (i - 4))
        (if i % 4 = 0 then
          xorWord (subWord (rotWord (wordAt (scheduleWords key) (i - 1)))) (rcon (i / 4))
        else wordAt (scheduleWords key) (i - 1))) ∧
    (∀ (r : Fin 11) (c i : Fin 4), (keyExpansion key)[r][4 * c.val + i.val] =
      (wordAt (scheduleWords key) (4 * r.val + c.val))[i])

/-- R129 to R133: the round transformations, byte by byte, and the order of the rounds. `AddRoundKey` with the round
key `RK[n]` of the key schedule is with the words `w[4n + c]`, one per column. `MixColumns` is the four equations on each
column, with what `{02}` and `{03}` do to a byte (R122), and its worked example. `AES_Encrypt`: for the states `S 0` after
the initial `AddRoundKey` and `S 1` to `S 9` after the rounds 1..9, it is the final round on `S 9`, which has no
`MixColumns`, stored. -/
def Obligations.AesRoundTransformations : Prop :=
  (∀ (k : Block) (s : AesState) (r c : Fin 4), (addRoundKey k s)[r][c] = s[r][c] ^^^ k[r.val + 4 * c.val]) ∧
  (∀ (key : Block) (s : AesState) (n : Fin 11) (r c : Fin 4),
    (addRoundKey (keyExpansion key)[n] s)[r][c] =
      s[r][c] ^^^ (wordAt (scheduleWords key) (4 * n.val + c.val))[r]) ∧
  (∀ (s : AesState) (r c : Fin 4), (subBytes s)[r][c] = sbox s[r][c]) ∧
  (∀ (s : AesState) (r c : Fin 4), (shiftRows s)[r][c] = s[r][(c.val + r.val) % 4]) ∧
  (∀ (s : AesState) (c : Fin 4),
    (mixColumns s)[0][c] = gfMul 0x02#8 s[0][c] ^^^ gfMul 0x03#8 s[1][c] ^^^ s[2][c] ^^^ s[3][c] ∧
    (mixColumns s)[1][c] = s[0][c] ^^^ gfMul 0x02#8 s[1][c] ^^^ gfMul 0x03#8 s[2][c] ^^^ s[3][c] ∧
    (mixColumns s)[2][c] = s[0][c] ^^^ s[1][c] ^^^ gfMul 0x02#8 s[2][c] ^^^ gfMul 0x03#8 s[3][c] ∧
    (mixColumns s)[3][c] = gfMul 0x03#8 s[0][c] ^^^ s[1][c] ^^^ s[2][c] ^^^ gfMul 0x02#8 s[3][c]) ∧
  (∀ b : Byte, gfMul 0x02#8 b = (b <<< 1) ^^^ (if b[7] then 0x1b#8 else 0x00#8) ∧
    gfMul 0x03#8 b = gfMul 0x02#8 b ^^^ b) ∧
  mixColumn #v[0xdb#8, 0x13#8, 0x53#8, 0x45#8] = #v[0x8e#8, 0x4d#8, 0xa1#8, 0xbc#8] ∧
  (∀ (rk : Vector Block 11) (b : Block) (S : Nat → AesState),
    S 0 = addRoundKey rk[0] (loadState b) →
    (∀ r : Fin 9, S (r.val + 1) = addRoundKey rk[r.val + 1] (mixColumns (shiftRows (subBytes (S r.val))))) →
    aesEncrypt rk b = storeState (addRoundKey rk[10] (shiftRows (subBytes (S 9)))))

/-- R128: storing a loaded block gives it back, and loading a stored state gives it back; byte `r + 4c` is row `r`,
column `c`. -/
def Obligations.LoadStoreRoundTrip : Prop :=
  (∀ b : Block, storeState (loadState b) = b) ∧
  (∀ s : AesState, loadState (storeState s) = s) ∧
  (∀ (b : Block) (r c : Fin 4), (loadState b)[r][c] = b[r.val + 4 * c.val]) ∧
  (∀ (s : AesState) (r c : Fin 4), (storeState s)[r.val + 4 * c.val] = s[r][c])

/-- R133: the transform is a permutation of the blocks for each key schedule: distinct inputs give distinct outputs. -/
def Obligations.AesEncryptIsInjective : Prop :=
  ∀ (rk : Vector Block 11) (a b : Block), aesEncrypt rk a = aesEncrypt rk b → a = b

/-- R160: CBC, block by block: the first block is chained from the IV, each later one from the ciphertext before it. -/
def Obligations.CbcChaining : Prop :=
  ∀ (rk : Vector Block 11) (iv : Block) (ps : List Block),
    (cbcChain rk iv ps).length = ps.length ∧
    (∀ h : 0 < ps.length, (cbcChain rk iv ps)[0]? = some (aesEncrypt rk (xorBlock ps[0] iv))) ∧
    (∀ (i : Nat) (c : Block) (h : i + 1 < ps.length), (cbcChain rk iv ps)[i]? = some c →
      (cbcChain rk iv ps)[i + 1]? = some (aesEncrypt rk (xorBlock ps[i + 1] c)))

/-- R166: CBC preserves the length of a byte string whose length is a multiple of 16, and ENCRYPT keeps `DATA_LEN`. -/
def Obligations.EncryptPreservesLength : Prop :=
  (∀ (key iv : Block) (p : List Byte), p.length % 16 = 0 → (cbcEncrypt key iv p).length = p.length) ∧
  (∀ s t : State, s.phase = .padded → exec .encrypt s = .next t → t.dataLen = s.dataLen ∧ t.msgLen = s.msgLen)

/-- R136: with an all-zero IV the first ciphertext block is the AES of the first plaintext block. -/
def Obligations.ZeroIvFirstBlockIsAes : Prop :=
  ∀ (key : Block) (p : List Byte), 16 ≤ p.length → p.length % 16 = 0 →
    (cbcEncrypt key zeroBlock p).take 16 = (aesEncrypt (keyExpansion key) (blockOfBytes p)).toList
end

