-- ==== Sys2Proof/Laws/State.lean ====
section
/-!
SUPPORT. For each named update of the state, what each field is after it. A proof rewrites with these and never unfolds
an update.
-/

namespace Sys2Proof.Machine

variable (s : State)

/-! `eraseKeyMaterial` -/

@[simp] theorem eraseKeyMaterial_key : (eraseKeyMaterial s).key = zeroWords := rfl
@[simp] theorem eraseKeyMaterial_iv : (eraseKeyMaterial s).iv = zeroWords := rfl
@[simp] theorem eraseKeyMaterial_msgLen : (eraseKeyMaterial s).msgLen = s.msgLen := rfl
@[simp] theorem eraseKeyMaterial_dataLen : (eraseKeyMaterial s).dataLen = s.dataLen := rfl
@[simp] theorem eraseKeyMaterial_buf : (eraseKeyMaterial s).buf = s.buf := rfl
@[simp] theorem eraseKeyMaterial_phase : (eraseKeyMaterial s).phase = s.phase := rfl
@[simp] theorem eraseKeyMaterial_busy : (eraseKeyMaterial s).busy = s.busy := rfl
@[simp] theorem eraseKeyMaterial_err : (eraseKeyMaterial s).err = s.err := rfl
@[simp] theorem eraseKeyMaterial_keyw : (eraseKeyMaterial s).keyw = 0#4 := rfl
@[simp] theorem eraseKeyMaterial_ivw : (eraseKeyMaterial s).ivw = 0#4 := rfl
@[simp] theorem eraseKeyMaterial_pending : (eraseKeyMaterial s).pending = s.pending := rfl
@[simp] theorem eraseKeyMaterial_rk : (eraseKeyMaterial s).rk = zeroRoundKeys := rfl
@[simp] theorem eraseKeyMaterial_chain : (eraseKeyMaterial s).chain = zeroBlock := rfl
@[simp] theorem eraseKeyMaterial_st : (eraseKeyMaterial s).st = zeroAesState := rfl
@[simp] theorem eraseKeyMaterial_host : (eraseKeyMaterial s).host = s.host := rfl
@[simp] theorem eraseKeyMaterial_responses : (eraseKeyMaterial s).responses = s.responses := rfl

/-! `zeroise` -/

@[simp] theorem zeroise_key : (zeroise s).key = zeroWords := rfl
@[simp] theorem zeroise_iv : (zeroise s).iv = zeroWords := rfl
@[simp] theorem zeroise_msgLen : (zeroise s).msgLen = 0#32 := rfl
@[simp] theorem zeroise_dataLen : (zeroise s).dataLen = 0#32 := rfl
@[simp] theorem zeroise_buf : (zeroise s).buf = [] := rfl
@[simp] theorem zeroise_phase : (zeroise s).phase = s.phase := rfl
@[simp] theorem zeroise_busy : (zeroise s).busy = s.busy := rfl
@[simp] theorem zeroise_err : (zeroise s).err = s.err := rfl
@[simp] theorem zeroise_keyw : (zeroise s).keyw = 0#4 := rfl
@[simp] theorem zeroise_ivw : (zeroise s).ivw = 0#4 := rfl
@[simp] theorem zeroise_pending : (zeroise s).pending = s.pending := rfl
@[simp] theorem zeroise_rk : (zeroise s).rk = zeroRoundKeys := rfl
@[simp] theorem zeroise_chain : (zeroise s).chain = zeroBlock := rfl
@[simp] theorem zeroise_st : (zeroise s).st = zeroAesState := rfl
@[simp] theorem zeroise_host : (zeroise s).host = s.host := rfl
@[simp] theorem zeroise_responses : (zeroise s).responses = s.responses := rfl

/-! `reject` -/

@[simp] theorem reject_key (c : ErrCode) : (reject c s).key = zeroWords := rfl
@[simp] theorem reject_iv (c : ErrCode) : (reject c s).iv = zeroWords := rfl
@[simp] theorem reject_msgLen (c : ErrCode) : (reject c s).msgLen = 0#32 := rfl
@[simp] theorem reject_dataLen (c : ErrCode) : (reject c s).dataLen = 0#32 := rfl
@[simp] theorem reject_buf (c : ErrCode) : (reject c s).buf = [] := rfl
@[simp] theorem reject_phase (c : ErrCode) : (reject c s).phase = .rejected := rfl
@[simp] theorem reject_busy (c : ErrCode) : (reject c s).busy = s.busy := rfl
@[simp] theorem reject_err (c : ErrCode) : (reject c s).err = c := rfl
@[simp] theorem reject_keyw (c : ErrCode) : (reject c s).keyw = 0#4 := rfl
@[simp] theorem reject_ivw (c : ErrCode) : (reject c s).ivw = 0#4 := rfl
@[simp] theorem reject_pending (c : ErrCode) : (reject c s).pending = s.pending := rfl
@[simp] theorem reject_rk (c : ErrCode) : (reject c s).rk = zeroRoundKeys := rfl
@[simp] theorem reject_chain (c : ErrCode) : (reject c s).chain = zeroBlock := rfl
@[simp] theorem reject_st (c : ErrCode) : (reject c s).st = zeroAesState := rfl
@[simp] theorem reject_host (c : ErrCode) : (reject c s).host = s.host := rfl
@[simp] theorem reject_responses (c : ErrCode) : (reject c s).responses = s.responses := rfl

/-! `startNewRun` -/

@[simp] theorem startNewRun_key : (startNewRun s).key = zeroWords := rfl
@[simp] theorem startNewRun_iv : (startNewRun s).iv = zeroWords := rfl
@[simp] theorem startNewRun_msgLen : (startNewRun s).msgLen = 0#32 := rfl
@[simp] theorem startNewRun_dataLen : (startNewRun s).dataLen = 0#32 := rfl
@[simp] theorem startNewRun_buf : (startNewRun s).buf = [] := rfl
@[simp] theorem startNewRun_phase : (startNewRun s).phase = .idle := rfl
@[simp] theorem startNewRun_busy : (startNewRun s).busy = s.busy := rfl
@[simp] theorem startNewRun_err : (startNewRun s).err = .none := rfl
@[simp] theorem startNewRun_keyw : (startNewRun s).keyw = 0#4 := rfl
@[simp] theorem startNewRun_ivw : (startNewRun s).ivw = 0#4 := rfl
@[simp] theorem startNewRun_pending : (startNewRun s).pending = s.pending := rfl
@[simp] theorem startNewRun_rk : (startNewRun s).rk = zeroRoundKeys := rfl
@[simp] theorem startNewRun_chain : (startNewRun s).chain = zeroBlock := rfl
@[simp] theorem startNewRun_st : (startNewRun s).st = zeroAesState := rfl
@[simp] theorem startNewRun_host : (startNewRun s).host = s.host := rfl
@[simp] theorem startNewRun_responses : (startNewRun s).responses = s.responses := rfl

/-! `retire` -/

@[simp] theorem retire_key : (retire s).key = s.key := rfl
@[simp] theorem retire_iv : (retire s).iv = s.iv := rfl
@[simp] theorem retire_msgLen : (retire s).msgLen = s.msgLen := rfl
@[simp] theorem retire_dataLen : (retire s).dataLen = s.dataLen := rfl
@[simp] theorem retire_buf : (retire s).buf = s.buf := rfl
@[simp] theorem retire_phase : (retire s).phase = s.phase := rfl
@[simp] theorem retire_busy : (retire s).busy = false := rfl
@[simp] theorem retire_err : (retire s).err = s.err := rfl
@[simp] theorem retire_keyw : (retire s).keyw = s.keyw := rfl
@[simp] theorem retire_ivw : (retire s).ivw = s.ivw := rfl
@[simp] theorem retire_pending : (retire s).pending = 0#32 := rfl
@[simp] theorem retire_rk : (retire s).rk = s.rk := rfl
@[simp] theorem retire_chain : (retire s).chain = s.chain := rfl
@[simp] theorem retire_st : (retire s).st = s.st := rfl
@[simp] theorem retire_host : (retire s).host = s.host := rfl
@[simp] theorem retire_responses : (retire s).responses = s.responses := rfl

/-! `issueCommand` -/

@[simp] theorem issueCommand_key (v : Word) : (issueCommand v s).key = s.key := rfl
@[simp] theorem issueCommand_iv (v : Word) : (issueCommand v s).iv = s.iv := rfl
@[simp] theorem issueCommand_msgLen (v : Word) : (issueCommand v s).msgLen = s.msgLen := rfl
@[simp] theorem issueCommand_dataLen (v : Word) : (issueCommand v s).dataLen = s.dataLen := rfl
@[simp] theorem issueCommand_buf (v : Word) : (issueCommand v s).buf = s.buf := rfl
@[simp] theorem issueCommand_phase (v : Word) : (issueCommand v s).phase = s.phase := rfl
@[simp] theorem issueCommand_busy (v : Word) : (issueCommand v s).busy = true := rfl
@[simp] theorem issueCommand_err (v : Word) : (issueCommand v s).err = s.err := rfl
@[simp] theorem issueCommand_keyw (v : Word) : (issueCommand v s).keyw = s.keyw := rfl
@[simp] theorem issueCommand_ivw (v : Word) : (issueCommand v s).ivw = s.ivw := rfl
@[simp] theorem issueCommand_pending (v : Word) : (issueCommand v s).pending = v := rfl
@[simp] theorem issueCommand_rk (v : Word) : (issueCommand v s).rk = s.rk := rfl
@[simp] theorem issueCommand_chain (v : Word) : (issueCommand v s).chain = s.chain := rfl
@[simp] theorem issueCommand_st (v : Word) : (issueCommand v s).st = s.st := rfl
@[simp] theorem issueCommand_host (v : Word) : (issueCommand v s).host = s.host := rfl
@[simp] theorem issueCommand_responses (v : Word) : (issueCommand v s).responses = s.responses := rfl

/-! `respond` -/

@[simp] theorem respond_key (r : BusResponse) : (respond r s).key = s.key := rfl
@[simp] theorem respond_iv (r : BusResponse) : (respond r s).iv = s.iv := rfl
@[simp] theorem respond_msgLen (r : BusResponse) : (respond r s).msgLen = s.msgLen := rfl
@[simp] theorem respond_dataLen (r : BusResponse) : (respond r s).dataLen = s.dataLen := rfl
@[simp] theorem respond_buf (r : BusResponse) : (respond r s).buf = s.buf := rfl
@[simp] theorem respond_phase (r : BusResponse) : (respond r s).phase = s.phase := rfl
@[simp] theorem respond_busy (r : BusResponse) : (respond r s).busy = s.busy := rfl
@[simp] theorem respond_err (r : BusResponse) : (respond r s).err = s.err := rfl
@[simp] theorem respond_keyw (r : BusResponse) : (respond r s).keyw = s.keyw := rfl
@[simp] theorem respond_ivw (r : BusResponse) : (respond r s).ivw = s.ivw := rfl
@[simp] theorem respond_pending (r : BusResponse) : (respond r s).pending = s.pending := rfl
@[simp] theorem respond_rk (r : BusResponse) : (respond r s).rk = s.rk := rfl
@[simp] theorem respond_chain (r : BusResponse) : (respond r s).chain = s.chain := rfl
@[simp] theorem respond_st (r : BusResponse) : (respond r s).st = s.st := rfl
@[simp] theorem respond_host (r : BusResponse) : (respond r s).host = s.host := rfl
@[simp] theorem respond_responses (r : BusResponse) : (respond r s).responses = r :: s.responses := rfl

/-! `assertReset` -/

@[simp] theorem assertReset_key : (assertReset s).key = zeroWords := rfl
@[simp] theorem assertReset_iv : (assertReset s).iv = zeroWords := rfl
@[simp] theorem assertReset_msgLen : (assertReset s).msgLen = 0#32 := rfl
@[simp] theorem assertReset_dataLen : (assertReset s).dataLen = 0#32 := rfl
@[simp] theorem assertReset_buf : (assertReset s).buf = [] := rfl
@[simp] theorem assertReset_phase : (assertReset s).phase = .idle := rfl
@[simp] theorem assertReset_busy : (assertReset s).busy = false := rfl
@[simp] theorem assertReset_err : (assertReset s).err = .none := rfl
@[simp] theorem assertReset_keyw : (assertReset s).keyw = 0#4 := rfl
@[simp] theorem assertReset_ivw : (assertReset s).ivw = 0#4 := rfl
@[simp] theorem assertReset_pending : (assertReset s).pending = 0#32 := rfl
@[simp] theorem assertReset_rk : (assertReset s).rk = zeroRoundKeys := rfl
@[simp] theorem assertReset_chain : (assertReset s).chain = zeroBlock := rfl
@[simp] theorem assertReset_st : (assertReset s).st = zeroAesState := rfl
@[simp] theorem assertReset_host : (assertReset s).host = s.host := rfl
@[simp] theorem assertReset_responses : (assertReset s).responses = s.responses := rfl

/-! `placeCommand` -/

@[simp] theorem placeCommand_key (v : Word) : (placeCommand v s).key = s.key := rfl
@[simp] theorem placeCommand_iv (v : Word) : (placeCommand v s).iv = s.iv := rfl
@[simp] theorem placeCommand_msgLen (v : Word) : (placeCommand v s).msgLen = s.msgLen := rfl
@[simp] theorem placeCommand_dataLen (v : Word) : (placeCommand v s).dataLen = s.dataLen := rfl
@[simp] theorem placeCommand_buf (v : Word) : (placeCommand v s).buf = s.buf := rfl
@[simp] theorem placeCommand_phase (v : Word) : (placeCommand v s).phase = s.phase := rfl
@[simp] theorem placeCommand_busy (v : Word) : (placeCommand v s).busy = true := rfl
@[simp] theorem placeCommand_err (v : Word) : (placeCommand v s).err = s.err := rfl
@[simp] theorem placeCommand_keyw (v : Word) : (placeCommand v s).keyw = s.keyw := rfl
@[simp] theorem placeCommand_ivw (v : Word) : (placeCommand v s).ivw = s.ivw := rfl
@[simp] theorem placeCommand_pending (v : Word) : (placeCommand v s).pending = v := rfl
@[simp] theorem placeCommand_rk (v : Word) : (placeCommand v s).rk = s.rk := rfl
@[simp] theorem placeCommand_chain (v : Word) : (placeCommand v s).chain = s.chain := rfl
@[simp] theorem placeCommand_st (v : Word) : (placeCommand v s).st = s.st := rfl
@[simp] theorem placeCommand_host (v : Word) : (placeCommand v s).host = .engineStep :: s.host := rfl
@[simp] theorem placeCommand_responses (v : Word) : (placeCommand v s).responses = s.responses := rfl

/-! `padBuffer` -/

@[simp] theorem padBuffer_key : (padBuffer s).key = s.key := rfl
@[simp] theorem padBuffer_iv : (padBuffer s).iv = s.iv := rfl
@[simp] theorem padBuffer_msgLen : (padBuffer s).msgLen = s.msgLen := rfl
@[simp] theorem padBuffer_dataLen : (padBuffer s).dataLen = s.msgLen + BitVec.ofNat 32 (padLen s.msgLen.toNat) := rfl
@[simp] theorem padBuffer_buf : (padBuffer s).buf = s.buf.writeBytes s.msgLen.toNat (padding s.msgLen.toNat) := rfl
@[simp] theorem padBuffer_phase : (padBuffer s).phase = .padded := rfl
@[simp] theorem padBuffer_busy : (padBuffer s).busy = s.busy := rfl
@[simp] theorem padBuffer_err : (padBuffer s).err = s.err := rfl
@[simp] theorem padBuffer_keyw : (padBuffer s).keyw = s.keyw := rfl
@[simp] theorem padBuffer_ivw : (padBuffer s).ivw = s.ivw := rfl
@[simp] theorem padBuffer_pending : (padBuffer s).pending = s.pending := rfl
@[simp] theorem padBuffer_rk : (padBuffer s).rk = s.rk := rfl
@[simp] theorem padBuffer_chain : (padBuffer s).chain = s.chain := rfl
@[simp] theorem padBuffer_st : (padBuffer s).st = s.st := rfl
@[simp] theorem padBuffer_host : (padBuffer s).host = s.host := rfl
@[simp] theorem padBuffer_responses : (padBuffer s).responses = s.responses := rfl

/-! `beginCbc` -/

@[simp] theorem beginCbc_key : (beginCbc s).key = s.key := rfl
@[simp] theorem beginCbc_iv : (beginCbc s).iv = s.iv := rfl
@[simp] theorem beginCbc_msgLen : (beginCbc s).msgLen = s.msgLen := rfl
@[simp] theorem beginCbc_dataLen : (beginCbc s).dataLen = s.dataLen := rfl
@[simp] theorem beginCbc_buf : (beginCbc s).buf = s.buf := rfl
@[simp] theorem beginCbc_phase : (beginCbc s).phase = s.phase := rfl
@[simp] theorem beginCbc_busy : (beginCbc s).busy = s.busy := rfl
@[simp] theorem beginCbc_err : (beginCbc s).err = s.err := rfl
@[simp] theorem beginCbc_keyw : (beginCbc s).keyw = s.keyw := rfl
@[simp] theorem beginCbc_ivw : (beginCbc s).ivw = s.ivw := rfl
@[simp] theorem beginCbc_pending : (beginCbc s).pending = s.pending := rfl
@[simp] theorem beginCbc_rk : (beginCbc s).rk = keyExpansion (keyBytes s) := rfl
@[simp] theorem beginCbc_chain : (beginCbc s).chain = ivBytes s := rfl
@[simp] theorem beginCbc_st : (beginCbc s).st = s.st := rfl
@[simp] theorem beginCbc_host : (beginCbc s).host = s.host := rfl
@[simp] theorem beginCbc_responses : (beginCbc s).responses = s.responses := rfl

end Sys2Proof.Machine
end

