-- ==== Sys2Proof/Laws/Memory.lean ====
section
/-!
SUPPORT. The laws of the buffer: a read after a write, what a write leaves alone, the canonical form is kept, and two
canonical buffers with the same bytes are equal.
-/

namespace Sys2Proof.Machine

@[simp] theorem Memory.read_nil (i : Nat) : Memory.read [] i = 0#8 := rfl

/-- The buffer after reset is in canonical form. -/
@[simp] theorem Memory.wf_nil : Memory.wf [] = true := rfl

theorem Memory.read_cons (a : Nat) (b : Byte) (m : Memory) (i : Nat) :
    Memory.read ((a, b) :: m) i = if a = i then b else Memory.read m i := rfl

theorem Memory.wfFrom_cons {lo a : Nat} {b : Byte} {m : Memory} :
    Memory.wfFrom lo ((a, b) :: m) = true ↔
      lo ≤ a ∧ a < 256 ∧ b ≠ 0#8 ∧ Memory.wfFrom (a + 1) m = true := by
  rw [Memory.wfFrom, Bool.and_eq_true, Bool.and_eq_true, Bool.and_eq_true, decide_eq_true_eq, decide_eq_true_eq,
    decide_eq_true_eq, and_assoc, and_assoc]
  rfl

/-- A lower bound of the indices may be lowered. -/
theorem Memory.wfFrom_mono {lo lo' : Nat} (hle : lo' ≤ lo) {m : Memory} (h : Memory.wfFrom lo m = true) :
    Memory.wfFrom lo' m = true := by
  cases m with
  | nil => rfl
  | cons c m =>
    obtain ⟨a, b⟩ := c
    rw [Memory.wfFrom_cons] at h ⊢
    exact ⟨hle.trans h.1, h.2⟩

/-- Below its lower bound a canonical buffer lists nothing. -/
theorem Memory.read_of_lt {lo i : Nat} (hi : i < lo) {m : Memory} (h : Memory.wfFrom lo m = true) :
    Memory.read m i = 0#8 := by
  induction m generalizing lo with
  | nil => rfl
  | cons c m ih =>
    obtain ⟨a, b⟩ := c
    rw [Memory.wfFrom_cons] at h
    rw [Memory.read_cons, if_neg (by omega)]
    exact ih (by omega) h.2.2.2

theorem Memory.read_cell_other {i j : Nat} (v : Byte) (m : Memory) (h : j ≠ i) :
    Memory.read (Memory.cell i v m) j = Memory.read m j := by
  unfold Memory.cell
  split
  · rfl
  · rw [Memory.read_cons, if_neg (Ne.symm h)]

theorem Memory.read_cell_same {i : Nat} (v : Byte) {m : Memory} (h : Memory.read m i = 0#8) :
    Memory.read (Memory.cell i v m) i = v := by
  unfold Memory.cell
  split
  next hv => rw [h, hv]; rfl
  next => rw [Memory.read_cons, if_pos rfl]

/-- A write leaves every other byte alone, in every buffer. -/
theorem Memory.read_write_other {i j : Nat} (v : Byte) (m : Memory) (h : j ≠ i) :
    Memory.read (Memory.write m i v) j = Memory.read m j := by
  induction m with
  | nil => exact Memory.read_cell_other v [] h
  | cons c m ih =>
    obtain ⟨a, b⟩ := c
    rw [Memory.write]
    split
    · exact Memory.read_cell_other v _ h
    · split
      next ha => rw [Memory.read_cell_other v _ h, Memory.read_cons, if_neg (by omega)]
      next => rw [Memory.read_cons, Memory.read_cons, ih]

theorem Memory.read_write_same_from {lo i : Nat} (v : Byte) {m : Memory} (h : Memory.wfFrom lo m = true) :
    Memory.read (Memory.write m i v) i = v := by
  induction m generalizing lo with
  | nil => exact Memory.read_cell_same v rfl
  | cons c m ih =>
    obtain ⟨a, b⟩ := c
    have hw := Memory.wfFrom_cons.1 h
    rw [Memory.write]
    split
    next hlt =>
      refine Memory.read_cell_same v ?_
      rw [Memory.read_cons, if_neg (by omega)]
      exact Memory.read_of_lt (by omega) hw.2.2.2
    next =>
      split
      next ha => exact Memory.read_cell_same v (Memory.read_of_lt (by omega) hw.2.2.2)
      next ha => rw [Memory.read_cons, if_neg (by omega)]; exact ih hw.2.2.2

/-- A read after a write to the same place gives the value written, in a canonical buffer. -/
theorem Memory.read_write_same (i : Nat) (v : Byte) {m : Memory} (h : Memory.wf m = true) :
    Memory.read (Memory.write m i v) i = v :=
  Memory.read_write_same_from v h

/-- A read after a write of a byte other than 0 gives that byte, in every buffer. -/
theorem Memory.read_write_same_of_ne (i : Nat) {v : Byte} (hv : v ≠ 0#8) (m : Memory) :
    Memory.read (Memory.write m i v) i = v := by
  have hc : ∀ m, Memory.read (Memory.cell i v m) i = v := fun m => by
    rw [Memory.cell, if_neg (by simpa [Memory.fill] using hv), Memory.read_cons, if_pos rfl]
  induction m with
  | nil => exact hc []
  | cons c m ih =>
    obtain ⟨a, b⟩ := c
    rw [Memory.write]
    split
    · exact hc _
    · split
      · exact hc _
      · rw [Memory.read_cons, if_neg (by omega), ih]

theorem Memory.wfFrom_cell {lo i : Nat} (v : Byte) {m : Memory} (hlo : lo ≤ i) (hi : i < 256)
    (h : Memory.wfFrom (i + 1) m = true) : Memory.wfFrom lo (Memory.cell i v m) = true := by
  unfold Memory.cell
  split
  · exact Memory.wfFrom_mono (by omega) h
  next hv => exact Memory.wfFrom_cons.2 ⟨hlo, hi, hv, h⟩

theorem Memory.wfFrom_write {lo i : Nat} (v : Byte) {m : Memory} (hlo : lo ≤ i) (hi : i < 256)
    (h : Memory.wfFrom lo m = true) : Memory.wfFrom lo (Memory.write m i v) = true := by
  induction m generalizing lo with
  | nil => exact Memory.wfFrom_cell v hlo hi rfl
  | cons c m ih =>
    obtain ⟨a, b⟩ := c
    have hw := Memory.wfFrom_cons.1 h
    rw [Memory.write]
    split
    next hlt => exact Memory.wfFrom_cell v hlo hi (Memory.wfFrom_cons.2 ⟨by omega, hw.2⟩)
    next =>
      split
      next ha => exact Memory.wfFrom_cell v hlo hi (by simpa [ha] using hw.2.2.2)
      next => exact Memory.wfFrom_cons.2 ⟨hw.1, hw.2.1, hw.2.2.1, ih (by omega) hw.2.2.2⟩

/-- A write inside the buffer keeps the canonical form. -/
theorem Memory.wf_write {i : Nat} (hi : i < 256) (v : Byte) {m : Memory} (h : Memory.wf m = true) :
    Memory.wf (Memory.write m i v) = true :=
  Memory.wfFrom_write v (Nat.zero_le _) hi h

/-- A write of consecutive bytes inside the buffer keeps the canonical form. -/
theorem Memory.wf_writeBytes {p : List Byte} {i : Nat} {m : Memory} (hi : i + p.length ≤ 256)
    (h : Memory.wf m = true) : Memory.wf (Memory.writeBytes m i p) = true := by
  induction p generalizing i m with
  | nil => exact h
  | cons b p ih =>
    rw [List.length_cons] at hi
    exact ih (by omega) (Memory.wf_write (by omega) b h)

/-- A write of consecutive bytes leaves every byte outside them alone, in every buffer. -/
theorem Memory.read_writeBytes_outside {p : List Byte} {i j : Nat} (m : Memory) (h : j < i ∨ i + p.length ≤ j) :
    Memory.read (Memory.writeBytes m i p) j = Memory.read m j := by
  induction p generalizing i m with
  | nil => rfl
  | cons b p ih =>
    rw [List.length_cons] at h
    rw [Memory.writeBytes, ih _ (by omega), Memory.read_write_other b m (by omega)]

/-- A read inside written bytes gives the byte written there, in a canonical buffer. -/
theorem Memory.read_writeBytes_inside {p : List Byte} {i k : Nat} {m : Memory} (hk : k < p.length)
    (hi : i + p.length ≤ 256) (h : Memory.wf m = true) :
    Memory.read (Memory.writeBytes m i p) (i + k) = p[k] := by
  induction p generalizing i k m with
  | nil => exact absurd hk (Nat.not_lt_zero _)
  | cons b p ih =>
    rw [List.length_cons] at hi hk
    rw [Memory.writeBytes]
    cases k with
    | zero => rw [Memory.read_writeBytes_outside _ (by omega)]; exact Memory.read_write_same i b h
    | succ k =>
      rw [show i + (k + 1) = i + 1 + k by omega,
        ih (by omega) (by omega) (Memory.wf_write (by omega) b h)]
      rfl

/-- A read inside written bytes gives the byte written there, in every buffer, if no byte written is 0. -/
theorem Memory.read_writeBytes_inside_of_ne {p : List Byte} {i k : Nat} (m : Memory) (hk : k < p.length)
    (hp : ∀ b ∈ p, b ≠ 0#8) : Memory.read (Memory.writeBytes m i p) (i + k) = p[k] := by
  induction p generalizing i k m with
  | nil => exact absurd hk (Nat.not_lt_zero _)
  | cons b p ih =>
    rw [List.length_cons] at hk
    rw [Memory.writeBytes]
    cases k with
    | zero =>
      rw [Memory.read_writeBytes_outside _ (by omega)]
      exact Memory.read_write_same_of_ne i (hp b (by simp)) m
    | succ k =>
      rw [show i + (k + 1) = i + 1 + k by omega, ih _ (by omega) fun c hc => hp c (by simp [hc])]
      rfl

@[simp] theorem Memory.length_readBytes (m : Memory) (i n : Nat) : (Memory.readBytes m i n).length = n := by
  induction n generalizing i with
  | zero => rfl
  | succ n ih => simp [Memory.readBytes, ih]

/-- The bytes read are the bytes at consecutive indices. -/
@[simp] theorem Memory.getElem_readBytes (m : Memory) (i n k : Nat) (h : k < (Memory.readBytes m i n).length) :
    (Memory.readBytes m i n)[k] = Memory.read m (i + k) := by
  induction n generalizing i k with
  | zero => simp [Memory.readBytes] at h
  | succ n ih =>
    cases k with
    | zero => rfl
    | succ k => simp [Memory.readBytes, ih, Nat.add_right_comm, Nat.add_assoc]

/-- A byte of a block read from the buffer. -/
@[simp] theorem Memory.getElem_readBlock (m : Memory) (i k : Nat) (h : k < 16) :
    (Memory.readBlock m i)[k] = Memory.read m (i + k) := by
  simp [Memory.readBlock, blockOfBytes, List.getD_eq_getElem?_getD]

/-- A byte string read is its first part and its second part. -/
theorem Memory.readBytes_add (m : Memory) (i a b : Nat) :
    Memory.readBytes m i (a + b) = Memory.readBytes m i a ++ Memory.readBytes m (i + a) b := by
  induction a generalizing i with
  | zero => simp [Memory.readBytes]
  | succ a ih => rw [Nat.succ_add, Memory.readBytes, Memory.readBytes, ih]; simp [Nat.add_assoc, Nat.add_comm 1]

/-- A byte string read depends only on its bytes. -/
theorem Memory.readBytes_congr {m m' : Memory} {i n : Nat}
    (h : ∀ j, i ≤ j → j < i + n → Memory.read m j = Memory.read m' j) :
    Memory.readBytes m i n = Memory.readBytes m' i n := by
  apply List.ext_getElem <;> simp only [Memory.length_readBytes, Memory.getElem_readBytes]
  intro k hk _
  exact h _ (by omega) (by omega)

/-- The head block of a byte string read is the block read. -/
theorem Memory.blockOfBytes_readBytes (m : Memory) (i : Nat) {n : Nat} (h : 16 ≤ n) :
    blockOfBytes (Memory.readBytes m i n) = Memory.readBlock m i := by
  apply Vector.ext
  intro k hk
  rw [Memory.getElem_readBlock]
  simp [blockOfBytes, List.getD_eq_getElem?_getD, show k < n by omega]

/-- A block written is read back as its bytes. -/
theorem Memory.readBytes_writeBlock {m : Memory} {i : Nat} (b : Block) (hi : i + 16 ≤ 256)
    (h : Memory.wf m = true) : Memory.readBytes (Memory.writeBlock m i b) i 16 = b.toList := by
  apply List.ext_getElem <;> simp only [Memory.length_readBytes, Memory.getElem_readBytes, Vector.length_toList]
  · intro k hk _
    rw [Memory.writeBlock, Memory.read_writeBytes_inside (by simpa using hk) (by simpa using hi) h]

/-- Two canonical buffers with the same bytes are the same list of cells. -/
theorem Memory.ext_from {lo : Nat} {m m' : Memory} (h : Memory.wfFrom lo m = true)
    (h' : Memory.wfFrom lo m' = true) (hr : ∀ i, Memory.read m i = Memory.read m' i) : m = m' := by
  induction m generalizing lo m' with
  | nil =>
    cases m' with
    | nil => rfl
    | cons c m' =>
      obtain ⟨a, b⟩ := c
      have := hr a
      rw [Memory.read_cons, if_pos rfl] at this
      exact absurd this.symm (Memory.wfFrom_cons.1 h').2.2.1
  | cons c m ih =>
    obtain ⟨a, b⟩ := c
    have hw := Memory.wfFrom_cons.1 h
    cases m' with
    | nil =>
      have := hr a
      rw [Memory.read_cons, if_pos rfl] at this
      exact absurd this hw.2.2.1
    | cons c' m' =>
      obtain ⟨a', b'⟩ := c'
      have hw' := Memory.wfFrom_cons.1 h'
      have haa : a = a' := by
        rcases Nat.lt_trichotomy a a' with hlt | heq | hlt
        · have := hr a
          rw [Memory.read_cons, if_pos rfl, Memory.read_cons, if_neg (by omega),
            Memory.read_of_lt (by omega) hw'.2.2.2] at this
          exact absurd this hw.2.2.1
        · exact heq
        · have := hr a'
          rw [Memory.read_cons, if_neg (by omega), Memory.read_of_lt (by omega) hw.2.2.2,
            Memory.read_cons, if_pos rfl] at this
          exact absurd this.symm hw'.2.2.1
      subst haa
      have hbb : b = b' := by simpa [Memory.read_cons] using hr a
      subst hbb
      rw [ih hw.2.2.2 hw'.2.2.2 fun i => ?_]
      by_cases hi : a = i
      · rw [Memory.read_of_lt (by omega) hw.2.2.2, Memory.read_of_lt (by omega) hw'.2.2.2]
      · simpa [Memory.read_cons, hi] using hr i

/-- The canonical form is canonical: the cells are determined by the bytes. -/
theorem Memory.ext {m m' : Memory} (h : Memory.wf m = true) (h' : Memory.wf m' = true)
    (hr : ∀ i, Memory.read m i = Memory.read m' i) : m = m' :=
  Memory.ext_from h h' hr

end Sys2Proof.Machine
end

