-- ==== Sys2Proof/Laws/Aes.lean ====
section
/-!
SUPPORT. The elements of the byte strings, AES words and AES states that the operations of Operands.lean and Aes.lean
make, each said once, so that no later proof unfolds one.
-/

namespace Sys2Proof.Machine

@[simp] theorem getElem_xorBlock (a b : Block) (i : Nat) (h : i < 16) : (xorBlock a b)[i] = a[i] ^^^ b[i] := by
  simp [xorBlock]

@[simp] theorem getElem_xorWord (a b : AesWord) (i : Nat) (h : i < 4) : (xorWord a b)[i] = a[i] ^^^ b[i] := by
  simp [xorWord]

@[simp] theorem getElem_subWord (w : AesWord) (i : Nat) (h : i < 4) : (subWord w)[i] = sbox w[i] := by
  simp [subWord]

@[simp] theorem getElem_bytesOfWords (ws : Vector Word 4) (n : Nat) (h : n < 16) :
    (bytesOfWords ws)[n] = lane ws[n / 4] (n % 4) := by
  simp [bytesOfWords]

@[simp] theorem getElem_loadState (b : Block) (r c : Nat) (hr : r < 4) (hc : c < 4) :
    (loadState b)[r][c] = b[r + 4 * c] := by
  simp [loadState]

@[simp] theorem getElem_storeState (s : AesState) (n : Nat) (h : n < 16) :
    (storeState s)[n] = s[n % 4][n / 4] := by
  simp [storeState]

@[simp] theorem getElem_addRoundKey (k : Block) (s : AesState) (r c : Nat) (hr : r < 4) (hc : c < 4) :
    (addRoundKey k s)[r][c] = s[r][c] ^^^ k[r + 4 * c] := by
  simp [addRoundKey]

@[simp] theorem getElem_subBytes (s : AesState) (r c : Nat) (hr : r < 4) (hc : c < 4) :
    (subBytes s)[r][c] = sbox s[r][c] := by
  simp [subBytes]

@[simp] theorem getElem_shiftRows (s : AesState) (r c : Nat) (hr : r < 4) (hc : c < 4) :
    (shiftRows s)[r][c] = s[r][(c + r) % 4] := by
  simp [shiftRows]

@[simp] theorem getElem_mixColumns (s : AesState) (r c : Nat) (hr : r < 4) (hc : c < 4) :
    (mixColumns s)[r][c] = (mixColumn (column s ⟨c, hc⟩))[r] := by
  simp [mixColumns]

@[simp] theorem getElem_column (s : AesState) (c : Fin 4) (r : Nat) (hr : r < 4) :
    (column s c)[r] = s[r][c.val] := by
  simp [column]

/-- Two AES states with the same bytes are equal. -/
theorem aesState_ext {s t : AesState} (h : ∀ (r c : Nat) (hr : r < 4) (hc : c < 4), s[r][c] = t[r][c]) : s = t :=
  Vector.ext fun r hr => Vector.ext fun c hc => h r c hr hc

end Sys2Proof.Machine
end

