-- ==== Sys2Proof/Laws/Exec.lean ====
section
/-!
SUPPORT. What each shared operation and each command can do, said once. A proof about a command splits on these and
never unfolds the command.
-/

namespace Sys2Proof.Machine

variable {s t : State}

theorem unlessRejected_of_rejected {body : Result} (h : s.phase = .rejected) : unlessRejected s body = .next s :=
  if_pos h

theorem unlessRejected_of_ne {body : Result} (h : s.phase ≠ .rejected) : unlessRejected s body = body :=
  if_neg h

theorem complete_eq_false {m : BitVec 4} : complete m = false ↔ m ≠ 0xF#4 := by simp [complete]

/-- R102, R205: when PAD raises no error. -/
theorem padError_eq_none :
    padError s = none ↔ s.phase = .idle ∧ s.msgLen.toNat ≤ 240 ∧ s.keyw = 0xF#4 ∧ s.ivw = 0xF#4 := by
  simp only [padError, complete_eq_false, Config.maxMsg]
  split_ifs with h1 h2 h3 h4 <;> simp_all

/-- R201: the codes that PAD raises. -/
theorem padError_code {c : ErrCode} (h : padError s = some c) :
    c = .sequence ∨ c = .msgTooLong ∨ c = .keyMissing ∨ c = .ivMissing := by
  unfold padError at h
  split_ifs at h <;> simp_all

/-- Everything PAD can do (R102, R182). -/
theorem execPad_cases (s : State) :
    (s.phase = .rejected ∧ execPad s = .next s) ∨
    (s.phase ≠ .rejected ∧ ∃ c, padError s = some c ∧ execPad s = .next (reject c s)) ∨
    (s.phase = .idle ∧ padError s = none ∧ execPad s = .next (padBuffer s)) := by
  by_cases h : s.phase = .rejected
  · exact .inl ⟨h, unlessRejected_of_rejected h⟩
  · rw [execPad, unlessRejected_of_ne h]
    cases hp : padError s with
    | none => exact .inr (.inr ⟨(padError_eq_none.1 hp).1, rfl, rfl⟩)
    | some c => exact .inr (.inl ⟨h, c, rfl, rfl⟩)

@[simp] theorem length_padding (n : Nat) : (padding n).length = 16 - n % 16 := by simp [padding, padLen]

/-- R101: no padding byte is 0. -/
theorem padding_ne_zero {n : Nat} {b : Byte} (h : b ∈ padding n) : b ≠ 0#8 := by
  simp only [padding, padLen, Config.blockSize, List.mem_replicate] at h
  rw [h.2, Ne, ← BitVec.toNat_inj, BitVec.toNat_ofNat, BitVec.toNat_ofNat]
  omega

/-- R102: the length PAD sets does not wrap. -/
theorem toNat_padBuffer_dataLen (h : s.msgLen.toNat ≤ 240) :
    (padBuffer s).dataLen.toNat = s.msgLen.toNat + (16 - s.msgLen.toNat % 16) := by
  rw [padBuffer_dataLen, BitVec.toNat_add, BitVec.toNat_ofNat, padLen, Config.blockSize,
    Nat.mod_eq_of_lt (a := 16 - _) (by omega), Nat.mod_eq_of_lt (by omega)]

/-- PAD keeps the canonical form of the buffer. -/
theorem wf_padBuffer (h : s.msgLen.toNat ≤ 240) (hw : s.buf.wf = true) : (padBuffer s).buf.wf = true := by
  rw [padBuffer_buf]
  exact Memory.wf_writeBytes (by rw [length_padding]; omega) hw

theorem paddedLengthBreached_eq_false :
    paddedLengthBreached s = false ↔ s.dataLen.toNat % 16 = 0 ∧ s.dataLen.toNat ≤ 256 := by
  simp [paddedLengthBreached]

theorem paddedLengthBreached_eq_true :
    paddedLengthBreached s = true ↔ s.dataLen.toNat % 16 ≠ 0 ∨ 256 < s.dataLen.toNat := by
  simp [paddedLengthBreached]

/-- Everything ENCRYPT can do (R161, R182, U1). -/
theorem execEncrypt_cases (s : State) :
    (s.phase = .rejected ∧ execEncrypt s = .next s) ∨
    (s.phase ≠ .rejected ∧ s.phase ≠ .padded ∧ execEncrypt s = .next (reject .sequence s)) ∨
    (s.phase = .padded ∧ (s.dataLen.toNat % 16 ≠ 0 ∨ 256 < s.dataLen.toNat) ∧
      execEncrypt s = .refused .paddedLengthBreach) ∨
    (s.phase = .padded ∧ s.dataLen.toNat % 16 = 0 ∧ s.dataLen.toNat ≤ 256 ∧
      execEncrypt s = .next (encryptBuffer s)) := by
  by_cases h : s.phase = .rejected
  · exact .inl ⟨h, unlessRejected_of_rejected h⟩
  · rw [execEncrypt, unlessRejected_of_ne h, encryptError]
    by_cases hp : s.phase = .padded
    · cases hb : paddedLengthBreached s with
      | true => exact .inr (.inr (.inl ⟨hp, paddedLengthBreached_eq_true.1 hb, by simp [hp]⟩))
      | false =>
        have := paddedLengthBreached_eq_false.1 hb
        exact .inr (.inr (.inr ⟨hp, this.1, this.2, by simp [hp]⟩))
    · exact .inr (.inl ⟨h, hp, by simp [hp]⟩)

/-- Everything an illegal word can do (R83, R182). -/
theorem execIllegal_cases (rsvd : BitVec 24) (op : BitVec 8) (s : State) :
    (s.phase = .rejected ∧ execIllegal rsvd op s = .next s) ∨
    (s.phase ≠ .rejected ∧ execIllegal rsvd op s = .next (reject .illegalCmd s)) := by
  by_cases h : s.phase = .rejected
  · exact .inl ⟨h, unlessRejected_of_rejected h⟩
  · exact .inr ⟨h, unlessRejected_of_ne h⟩

/-- The codes a command error can have (R201). -/
def raisedCode (c : ErrCode) : Prop := c ≠ .none ∧ c ≠ .cipherSetup

/-- Everything a command can do when it completes. -/
theorem exec_cases {i : Instr} (h : exec i s = .next t) :
    (t = s ∧ (i = .nop ∨ (s.phase = .rejected ∧ i ≠ .zeroize))) ∨
    (∃ c, raisedCode c ∧ t = reject c s ∧ s.phase ≠ .rejected ∧ i ≠ .nop ∧ i ≠ .zeroize ∧
      (i = .pad → padError s = some c) ∧ (i = .encrypt → s.phase ≠ .padded)) ∨
    (t = startNewRun s ∧ i = .zeroize) ∨
    (t = padBuffer s ∧ i = .pad ∧ padError s = none) ∨
    (t = encryptBuffer s ∧ i = .encrypt ∧ s.phase = .padded ∧ s.dataLen.toNat % 16 = 0 ∧
      s.dataLen.toNat ≤ 256) := by
  have inj : ∀ {u : State}, (Host.Outcome.next u : Result) = .next t → t = u :=
    fun h => (Host.Outcome.next.inj h).symm
  cases i with
  | nop => exact .inl ⟨inj h, .inl rfl⟩
  | zeroize => exact .inr (.inr (.inl ⟨inj h, rfl⟩))
  | pad =>
    rw [show exec .pad s = execPad s from rfl] at h
    obtain ⟨hp, he⟩ | ⟨hp, c, hc, he⟩ | ⟨-, hc, he⟩ := execPad_cases s
    · exact .inl ⟨inj (he ▸ h), .inr ⟨hp, by decide⟩⟩
    · refine .inr (.inl ⟨c, ?_, inj (he ▸ h), hp, by decide, by decide, fun _ => hc, nofun⟩)
      obtain rfl | rfl | rfl | rfl := padError_code hc <;> exact ⟨by decide, by decide⟩
    · exact .inr (.inr (.inr (.inl ⟨inj (he ▸ h), rfl, hc⟩)))
  | encrypt =>
    rw [show exec .encrypt s = execEncrypt s from rfl] at h
    obtain ⟨hp, he⟩ | ⟨hp, hn, he⟩ | ⟨-, -, he⟩ | ⟨hp, h1, h2, he⟩ := execEncrypt_cases s
    · exact .inl ⟨inj (he ▸ h), .inr ⟨hp, by decide⟩⟩
    · exact .inr (.inl ⟨.sequence, ⟨by decide, by decide⟩, inj (he ▸ h), hp, by decide, by decide,
        nofun, fun _ => hn⟩)
    · rw [he] at h; cases h
    · exact .inr (.inr (.inr (.inr ⟨inj (he ▸ h), rfl, hp, h1, h2⟩)))
  | illegal rsvd op =>
    rw [show exec (.illegal rsvd op) s = execIllegal rsvd op s from rfl] at h
    obtain ⟨hp, he⟩ | ⟨hp, he⟩ := execIllegal_cases rsvd op s
    · exact .inl ⟨inj (he ▸ h), .inr ⟨hp, by simp⟩⟩
    · exact .inr (.inl ⟨.illegalCmd, ⟨by decide, by decide⟩, inj (he ▸ h), hp, by simp, by simp, by simp, by simp⟩)

/-! The loop of ENCRYPT writes the buffer, the chain value and the AES state, and nothing else. -/

@[simp] theorem encryptBlock_buf (s : State) (i : Nat) : (encryptBlock s i).buf =
    s.buf.writeBlock (16 * i) (aesEncrypt s.rk (xorBlock (s.buf.readBlock (16 * i)) s.chain)) := by
  simp only [encryptBlock, aesEncrypt]

@[simp] theorem encryptBlock_chain (s : State) (i : Nat) : (encryptBlock s i).chain =
    aesEncrypt s.rk (xorBlock (s.buf.readBlock (16 * i)) s.chain) := by
  simp only [encryptBlock, aesEncrypt]

@[simp] theorem encryptBlock_rk (s : State) (i : Nat) : (encryptBlock s i).rk = s.rk := by
  simp only [encryptBlock]

theorem encryptBlock_frame (s : State) (i : Nat) : encryptBlock s i =
    { s with buf := (encryptBlock s i).buf, chain := (encryptBlock s i).chain, st := (encryptBlock s i).st } := by
  simp only [encryptBlock]

theorem encryptBlocks_frame (n i : Nat) (s : State) : encryptBlocks n i s =
    { s with
      buf := (encryptBlocks n i s).buf
      chain := (encryptBlocks n i s).chain
      st := (encryptBlocks n i s).st } := by
  induction n generalizing i s with
  | zero => rfl
  | succ n ih => rw [encryptBlocks, ih, encryptBlock_frame]

/-- What an ENCRYPT without error leaves, up to the bytes of the buffer. -/
theorem encryptBuffer_frame (s : State) : encryptBuffer s =
    { s with
      buf := (encryptBuffer s).buf
      key := zeroWords
      iv := zeroWords
      keyw := 0#4
      ivw := 0#4
      rk := zeroRoundKeys
      chain := zeroBlock
      st := zeroAesState
      phase := .encrypted } := by
  rw [encryptBuffer, encryptBlocks_frame]
  rfl

/-! `encryptBuffer` -/

@[simp] theorem encryptBuffer_key (s : State) : (encryptBuffer s).key = zeroWords := by
  rw [encryptBuffer_frame]

@[simp] theorem encryptBuffer_iv (s : State) : (encryptBuffer s).iv = zeroWords := by
  rw [encryptBuffer_frame]

@[simp] theorem encryptBuffer_msgLen (s : State) : (encryptBuffer s).msgLen = s.msgLen := by
  rw [encryptBuffer_frame]

@[simp] theorem encryptBuffer_dataLen (s : State) : (encryptBuffer s).dataLen = s.dataLen := by
  rw [encryptBuffer_frame]

@[simp] theorem encryptBuffer_phase (s : State) : (encryptBuffer s).phase = .encrypted := by
  rw [encryptBuffer_frame]

@[simp] theorem encryptBuffer_busy (s : State) : (encryptBuffer s).busy = s.busy := by
  rw [encryptBuffer_frame]

@[simp] theorem encryptBuffer_err (s : State) : (encryptBuffer s).err = s.err := by
  rw [encryptBuffer_frame]

@[simp] theorem encryptBuffer_keyw (s : State) : (encryptBuffer s).keyw = 0#4 := by
  rw [encryptBuffer_frame]

@[simp] theorem encryptBuffer_ivw (s : State) : (encryptBuffer s).ivw = 0#4 := by
  rw [encryptBuffer_frame]

@[simp] theorem encryptBuffer_pending (s : State) : (encryptBuffer s).pending = s.pending := by
  rw [encryptBuffer_frame]

@[simp] theorem encryptBuffer_rk (s : State) : (encryptBuffer s).rk = zeroRoundKeys := by
  rw [encryptBuffer_frame]

@[simp] theorem encryptBuffer_chain (s : State) : (encryptBuffer s).chain = zeroBlock := by
  rw [encryptBuffer_frame]

@[simp] theorem encryptBuffer_st (s : State) : (encryptBuffer s).st = zeroAesState := by
  rw [encryptBuffer_frame]

@[simp] theorem encryptBuffer_host (s : State) : (encryptBuffer s).host = s.host := by
  rw [encryptBuffer_frame]

@[simp] theorem encryptBuffer_responses (s : State) : (encryptBuffer s).responses = s.responses := by
  rw [encryptBuffer_frame]

theorem encryptBuffer_buf (s : State) :
    (encryptBuffer s).buf = (encryptBlocks (s.dataLen.toNat / 16) 0 (beginCbc s)).buf := rfl

/-- The loop keeps the canonical form of the buffer, for blocks inside it. -/
theorem wf_encryptBlocks {n i : Nat} {s : State} (hi : 16 * (i + n) ≤ 256) (h : s.buf.wf = true) :
    (encryptBlocks n i s).buf.wf = true := by
  induction n generalizing i s with
  | zero => exact h
  | succ n ih =>
    rw [encryptBlocks]
    refine ih (by omega) ?_
    rw [encryptBlock_buf, Memory.writeBlock]
    exact Memory.wf_writeBytes (by rw [Vector.length_toList]; omega) h

/-- The loop leaves every byte outside its blocks alone. -/
theorem read_encryptBlocks_outside {n i j : Nat} (s : State) (h : j < 16 * i ∨ 16 * (i + n) ≤ j) :
    (encryptBlocks n i s).buf.read j = s.buf.read j := by
  induction n generalizing i s with
  | zero => rfl
  | succ n ih =>
    rw [encryptBlocks, ih _ (by omega), encryptBlock_buf, Memory.writeBlock,
      Memory.read_writeBytes_outside _ (by simp only [Vector.length_toList]; omega)]

end Sys2Proof.Machine
end

