-- ==== Sys2Proof/Laws/PerInstr.lean ====
section
/-!
SUPPORT. Statements made once per constructor of `Instr`: the two fields of the encoded word (30_encoding.md R80, R81)
are those of the command.
-/

/-- The field `OP` of a command (R81). -/
def Sys2Proof.Laws.EncodedFields.opOf : Sys2Proof.Instr → BitVec 8
  | .nop => 0x00#8
  | .pad => 0x01#8
  | .encrypt => 0x02#8
  | .zeroize => 0x03#8
  | .illegal _ op => op

/-- The field `RSVD` of a command: 0 in all four commands (R80). -/
def Sys2Proof.Laws.EncodedFields.rsvdOf : Sys2Proof.Instr → BitVec 24
  | .nop => 0#24
  | .pad => 0#24
  | .encrypt => 0#24
  | .zeroize => 0#24
  | .illegal rsvd _ => rsvd

/-- The encoded word has the fields of the command. -/
def Sys2Proof.Laws.EncodedFields.Statement (i : Sys2Proof.Instr) : Prop :=
  Sys2Proof.opField (Sys2Proof.encode i) = Sys2Proof.Laws.EncodedFields.opOf i ∧
    Sys2Proof.rsvdField (Sys2Proof.encode i) = Sys2Proof.Laws.EncodedFields.rsvdOf i

theorem Sys2Proof.Laws.EncodedFields.nop : Sys2Proof.Laws.EncodedFields.Statement .nop := ⟨rfl, rfl⟩

theorem Sys2Proof.Laws.EncodedFields.pad : Sys2Proof.Laws.EncodedFields.Statement .pad := ⟨rfl, rfl⟩

theorem Sys2Proof.Laws.EncodedFields.encrypt : Sys2Proof.Laws.EncodedFields.Statement .encrypt := ⟨rfl, rfl⟩

theorem Sys2Proof.Laws.EncodedFields.zeroize : Sys2Proof.Laws.EncodedFields.Statement .zeroize := ⟨rfl, rfl⟩

theorem Sys2Proof.Laws.EncodedFields.illegal (rsvd : BitVec 24) (op : BitVec 8) :
    Sys2Proof.Laws.EncodedFields.Statement (.illegal rsvd op) := by
  refine ⟨BitVec.eq_of_getLsbD_eq fun i hi => ?_, BitVec.eq_of_getLsbD_eq fun i hi => ?_⟩
  · show (BitVec.extractLsb' 0 8 (rsvd ++ op)).getLsbD i = op.getLsbD i
    rw [BitVec.getLsbD_extractLsb', BitVec.getLsbD_append]
    simp [hi]
  · show (BitVec.extractLsb' 8 24 (rsvd ++ op)).getLsbD i = rsvd.getLsbD i
    rw [BitVec.getLsbD_extractLsb', BitVec.getLsbD_append]
    simp [hi]
end

