-- ==== Sys2Proof/Laws/Step.lean ====
section
/-!
SUPPORT. What a host access and a step can do, said once.
-/

namespace Sys2Proof.Machine

variable {s t : State} {width off : Nat}

/-! The register map (R51), register by register. -/

@[simp] theorem registerAt_cmd : registerAt 0x000 = .cmd := rfl
@[simp] theorem registerAt_status : registerAt 0x004 = .status := rfl
@[simp] theorem registerAt_msgLen : registerAt 0x008 = .msgLen := rfl
@[simp] theorem registerAt_dataLen : registerAt 0x00C = .dataLen := rfl

@[simp] theorem registerAt_key (k : Fin 4) : registerAt (0x010 + 4 * k.val) = .key k := by
  revert k; decide

@[simp] theorem registerAt_iv (k : Fin 4) : registerAt (0x020 + 4 * k.val) = .iv k := by
  revert k; decide

@[simp] theorem registerAt_bufw (j : Fin 64) : registerAt (0x100 + 4 * j.val) = .bufw j := by
  revert j; decide

theorem registerAt_reserved (h : 0x030 ≤ off) (h' : off < 0x100) : registerAt off = .reserved := by
  unfold registerAt
  split_ifs <;> first | rfl | omega

/-- Every aligned offset of the region is one of the registers of R51. -/
theorem registerAt_cases (h : off < 0x200) (ha : off % 4 = 0) :
    off = 0x000 ∨ off = 0x004 ∨ off = 0x008 ∨ off = 0x00C ∨ (∃ k : Fin 4, off = 0x010 + 4 * k.val) ∨
    (∃ k : Fin 4, off = 0x020 + 4 * k.val) ∨ (0x030 ≤ off ∧ off < 0x100) ∨
    (∃ j : Fin 64, off = 0x100 + 4 * j.val) := by
  by_cases h1 : off < 0x010
  · omega
  by_cases h2 : off < 0x020
  · exact .inr (.inr (.inr (.inr (.inl ⟨⟨(off - 0x010) / 4, by omega⟩, by simp only; omega⟩))))
  by_cases h3 : off < 0x030
  · exact .inr (.inr (.inr (.inr (.inr (.inl ⟨⟨(off - 0x020) / 4, by omega⟩, by simp only; omega⟩)))))
  by_cases h4 : off < 0x100
  · exact .inr (.inr (.inr (.inr (.inr (.inr (.inl ⟨by omega, h4⟩))))))
  · exact .inr (.inr (.inr (.inr (.inr (.inr (.inr ⟨⟨(off - 0x100) / 4, by omega⟩, by simp only; omega⟩))))))

/-! The three things an access can be (R50, R52). -/

theorem access_outside {p : State} (h : 0x200 ≤ off) : access width off s p = .refused (.outsideRegion off) :=
  if_pos h

theorem access_bad {p : State} (h : off < 0x200) (hb : width ≠ 32 ∨ off % 4 ≠ 0) :
    access width off s p = .next (respond (.busError off) s) := by
  have : validAccess width off = false := by
    simp only [validAccess, Bool.and_eq_false_iff, decide_eq_false_iff_not]
    exact hb
  rw [access, if_neg (by simpa using h), if_pos this]

theorem access_good {p : State} (h : off < 0x200) (ha : off % 4 = 0) : access 32 off s p = .next p := by
  have : validAccess 32 off = true := by simp [validAccess, ha]
  rw [access, if_neg (by simpa using h), if_neg (by simp [this])]

/-! The step, event by event. -/

theorem step_of_read {rest : List HostEvent} (h : s.host = .read width off :: rest) :
    step s = hostRead width off { s with host := rest } := by
  rw [step, advance, h]; rfl

theorem step_of_write {v : Word} {rest : List HostEvent} (h : s.host = .write width off v :: rest) :
    step s = hostWrite width off v { s with host := rest } := by
  rw [step, advance, h]; rfl

theorem step_of_engineStep {rest : List HostEvent} (h : s.host = .engineStep :: rest) :
    step s = runEngine { s with host := rest } := by
  rw [step, advance, h]; rfl

theorem step_of_reset {rest : List HostEvent} (h : s.host = .reset :: rest) :
    step s = .next (assertReset { s with host := rest }) := by
  rw [step, advance, h]; rfl

theorem step_of_busy (h : s.host = []) (hb : s.busy = true) : step s = runEngine s := by
  rw [step, advance, h]; exact if_pos hb

theorem step_of_idle (h : s.host = []) (hb : s.busy = false) : step s = .next s := by
  rw [step, advance, h]; exact if_neg (by simp [hb])

/-- The engine step, when the command completes (R181). -/
theorem runEngine_of_next (hb : s.busy = true) (h : exec (decode s.pending) s = .next t) :
    runEngine s = .next (retire t) := by
  rw [runEngine, if_pos hb, h]; rfl

/-- The engine step, when the command is refused (R181). -/
theorem runEngine_of_refused {r : Refusal} (hb : s.busy = true) (h : exec (decode s.pending) s = .refused r) :
    runEngine s = .refused r := by
  rw [runEngine, if_pos hb, h]; rfl

/-- A completed engine step is a completed command and its end (R181). -/
theorem runEngine_cases (h : runEngine s = .next t) :
    s.busy = true ∧ ∃ u, exec (decode s.pending) s = .next u ∧ t = retire u := by
  unfold runEngine at h
  split at h
  next hb =>
    cases he : exec (decode s.pending) s with
    | next u => rw [he] at h; exact ⟨hb, u, rfl, (Host.Outcome.next.inj h).symm⟩
    | fault e => rw [he] at h; cases h
    | refused e => rw [he] at h; cases h
  next => cases h

/-- Everything a write that is performed can do (R57). -/
theorem busWrite32_cases (off : Nat) (v : Word) (s : State) :
    busWrite32 off v s = s ∨
    (s.busy = false ∧ registerAt off = .cmd ∧ busWrite32 off v s = issueCommand v s) ∨
    (s.busy = false ∧ s.phase = .idle ∧
      ((registerAt off = .msgLen ∧ busWrite32 off v s = { s with msgLen := v }) ∨
       (∃ k, registerAt off = .key k ∧
        busWrite32 off v s = { s with key := s.key.set k v, keyw := markWritten s.keyw k }) ∨
       (∃ k, registerAt off = .iv k ∧
        busWrite32 off v s = { s with iv := s.iv.set k v, ivw := markWritten s.ivw k }) ∨
       (∃ j : Fin 64, registerAt off = .bufw j ∧
        busWrite32 off v s = { s with buf := s.buf.writeBytes (4 * j.val) (lanes v) }))) := by
  unfold busWrite32
  by_cases hb : s.busy = true
  · exact .inl (if_pos hb)
  · rw [if_neg hb]
    have hb : s.busy = false := by simpa using hb
    cases hr : registerAt off with
    | cmd => exact .inr (.inl ⟨hb, rfl, rfl⟩)
    | status => exact .inl rfl
    | dataLen => exact .inl rfl
    | reserved => exact .inl rfl
    | msgLen =>
      by_cases hp : s.phase = .idle
      · exact .inr (.inr ⟨hb, hp, .inl ⟨rfl, if_pos hp⟩⟩)
      · exact .inl (if_neg hp)
    | key k =>
      by_cases hp : s.phase = .idle
      · exact .inr (.inr ⟨hb, hp, .inr (.inl ⟨k, rfl, if_pos hp⟩)⟩)
      · exact .inl (if_neg hp)
    | iv k =>
      by_cases hp : s.phase = .idle
      · exact .inr (.inr ⟨hb, hp, .inr (.inr (.inl ⟨k, rfl, if_pos hp⟩))⟩)
      · exact .inl (if_neg hp)
    | bufw j =>
      by_cases hp : s.phase = .idle
      · exact .inr (.inr ⟨hb, hp, .inr (.inr (.inr ⟨j, rfl, if_pos hp⟩))⟩)
      · exact .inl (if_neg hp)

/-- Everything an access can do when the step answers a next state. -/
theorem access_cases {p : State} (h : access width off s p = .next t) :
    (t = respond (.busError off) s) ∨ (width = 32 ∧ off < 0x200 ∧ off % 4 = 0 ∧ t = p) := by
  by_cases h1 : 0x200 ≤ off
  · rw [access_outside h1] at h; cases h
  · by_cases h2 : width ≠ 32 ∨ off % 4 ≠ 0
    · rw [access_bad (by omega) h2] at h
      exact .inl (Host.Outcome.next.inj h).symm
    · obtain ⟨rfl, ha⟩ : width = 32 ∧ off % 4 = 0 := by omega
      rw [access_good (by omega) ha] at h
      exact .inr ⟨rfl, by omega, ha, (Host.Outcome.next.inj h).symm⟩

/-- Everything a step can do when it answers a next state. `u` is the state with the event taken off. -/
theorem step_cases (h : step s = .next t) :
    (s.host = [] ∧ s.busy = false ∧ t = s) ∨
    (∃ u, u = { s with host := u.host } ∧ (s.host = [] ∧ u = s ∨ s.host = .engineStep :: u.host) ∧
      s.busy = true ∧ ∃ w, exec (decode s.pending) u = .next w ∧ t = retire w) ∨
    (∃ width off rest, s.host = .read width off :: rest ∧ ∃ r, t = respond r { s with host := rest }) ∨
    (∃ width off v rest, s.host = .write width off v :: rest ∧
      (t = respond (.busError off) { s with host := rest } ∨ t = busWrite32 off v { s with host := rest })) ∨
    (∃ rest, s.host = .reset :: rest ∧ t = assertReset { s with host := rest }) := by
  cases hs : s.host with
  | nil =>
    by_cases hb : s.busy = true
    · rw [step_of_busy hs hb] at h
      obtain ⟨-, w, hw, ht⟩ := runEngine_cases h
      exact .inr (.inl ⟨s, rfl, .inl ⟨rfl, rfl⟩, hb, w, hw, ht⟩)
    · have hb : s.busy = false := by simpa using hb
      rw [step_of_idle hs hb] at h
      exact .inl ⟨rfl, hb, (Host.Outcome.next.inj h).symm⟩
  | cons e rest =>
    cases e with
    | read width off =>
      rw [step_of_read hs, hostRead] at h
      obtain ht | ⟨-, -, -, ht⟩ := access_cases h
      · exact .inr (.inr (.inl ⟨width, off, rest, rfl, _, ht⟩))
      · exact .inr (.inr (.inl ⟨width, off, rest, rfl, _, ht⟩))
    | write width off v =>
      rw [step_of_write hs, hostWrite] at h
      obtain ht | ⟨-, -, -, ht⟩ := access_cases h
      · exact .inr (.inr (.inr (.inl ⟨width, off, v, rest, rfl, .inl ht⟩)))
      · exact .inr (.inr (.inr (.inl ⟨width, off, v, rest, rfl, .inr ht⟩)))
    | engineStep =>
      rw [step_of_engineStep hs] at h
      obtain ⟨hb, w, hw, ht⟩ := runEngine_cases h
      exact .inr (.inl ⟨{ s with host := rest }, rfl, .inr rfl, hb, w, hw, ht⟩)
    | reset =>
      rw [step_of_reset hs] at h
      exact .inr (.inr (.inr (.inr ⟨rest, rfl, (Host.Outcome.next.inj h).symm⟩)))

/-- What a run of one step more is. -/
theorem run_succ_cases {M : Host.Core} {n : Nat} {s t : M.State} (h : M.run (n + 1) s = .next t) :
    ∃ u, M.step s = .next u ∧ M.run n u = .next t := by
  rw [Host.Core.run] at h
  cases hs : M.step s with
  | next u => rw [hs] at h; exact ⟨u, rfl, h⟩
  | fault e => rw [hs] at h; cases h
  | refused e => rw [hs] at h; cases h

/-- What every step keeps, every run keeps. -/
theorem run_keeps {P : State → Prop} (hstep : ∀ s t, P s → step s = .next t → P t) {n : Nat} :
    ∀ {s t : State}, P s → Host.Core.run core n s = .next t → P t := by
  induction n with
  | zero => intro s t h hr; exact (Host.Outcome.next.inj hr) ▸ h
  | succ n ih =>
    intro s t h hr
    obtain ⟨u, hu, hr⟩ := run_succ_cases (M := core) hr
    exact ih (hstep s u h hu) hr

end Sys2Proof.Machine
end

