-- ==== Sys2Proof/Machine/HostProgram.lean ====
section
/-!
DEFINITION. The host's notation for sequences of bus transactions: the pseudo-instructions of 30_encoding.md R87, each
expanded to events of the `host` list, and the run of 70_reset_and_hazards.md R232. They are the host's, not the block's; a loop of the host (`POLL`) is the one
step and one read that R87 says it is equivalent to in a model's run.
-/

namespace Sys2Proof.Machine

/-- `W off, v`, a 32-bit write (R86). -/
def hostW (off : Nat) (v : Word) : HostEvent := .write Config.busWidth off v

/-- `R off`, a 32-bit read (R86). -/
def hostR (off : Nat) : HostEvent := .read Config.busWidth off

/-- `CMD m` (R87). -/
def hostCmd (i : Instr) : List HostEvent := [hostW 0x000 (encode i)]

/-- `POLL` after a `CMD` write (R87). -/
def hostPoll : List HostEvent := [.engineStep, hostR 0x004]

/-- The writes of a byte string to consecutive words from `off` on, `n` words; bytes past its end are 0 (R87). -/
def hostWriteBytes : (n off : Nat) → List Byte → List HostEvent
  | 0, _, _ => []
  | n + 1, off, p =>
    hostW off (wordOfLanes (p.getD 0 0#8) (p.getD 1 0#8) (p.getD 2 0#8) (p.getD 3 0#8))
      :: hostWriteBytes n (off + 4) (p.drop 4)

/-- `LOADKEY k0..k15` (R87). -/
def hostLoadKey (k : Block) : List HostEvent := hostWriteBytes 4 0x010 k.toList

/-- `LOADIV i0..i15` (R87). -/
def hostLoadIv (k : Block) : List HostEvent := hostWriteBytes 4 0x020 k.toList

/-- `LOADMSG m[0..L)` (R87). -/
def hostLoadMsg (m : List Byte) : List HostEvent :=
  hostW 0x008 (BitVec.ofNat 32 m.length) :: hostWriteBytes ((m.length + 3) / 4) 0x100 m

/-- The reads of `n` consecutive words from `off` on. -/
def hostReadWords : (n off : Nat) → List HostEvent
  | 0, _ => []
  | n + 1, off => hostR off :: hostReadWords n (off + 4)

/-- `READBUF n` (R87). -/
def hostReadBuf (n : Nat) : List HostEvent := hostReadWords (n / 4) 0x100

/-- R232: one run for a key, an IV and a message, in one of the orders step 2 allows, from reset or a completed ZEROIZE.
The number of ciphertext bytes read is the padded length of R101, which a host learns from its `DATA_LEN` read; the
host's own checks of `PHASE` are not events of the bus. -/
def hostRun (key iv : Block) (m : List Byte) : List HostEvent :=
  hostLoadKey key ++ hostLoadIv iv ++ hostLoadMsg m
    ++ hostCmd .pad ++ hostPoll
    ++ hostCmd .encrypt ++ hostPoll
    ++ [hostR 0x00C] ++ hostReadBuf ((m.length / Config.blockSize + 1) * Config.blockSize)
    ++ hostCmd .zeroize ++ hostPoll

end Sys2Proof.Machine
end

