-- ==== Sys2Proof/Tests/Slice0.lean ====
section
/-!
SUPPORT. Tests of the model against the values spec/ prints (95_test_vectors.md unless another file is named), the
smoke tests of `Instr.wellFormed`, and a witness for the hypotheses of every statement that has any.
-/

namespace Sys2Proof.Tests

open Sys2Proof.Machine

-- One theorem after another: the kernel's evaluation of AES is long, and the theorems behind it would each hold a
-- thread while they wait.
set_option Elab.async false

/-! Small states. -/

/-- `IDLE`, key and IV all zero and complete, message "HELLO" (program P1 before PAD). -/
def loaded : State :=
  { State.reset with
    keyw := 0xF#4
    ivw := 0xF#4
    msgLen := 5#32
    buf := [(0, 0x48#8), (1, 0x45#8), (2, 0x4C#8), (3, 0x4C#8), (4, 0x4F#8)] }

/-- `loaded` after PAD (V-P3), the cells written out. -/
def padded : State :=
  { loaded with
    phase := .padded
    dataLen := 16#32
    buf := [(0, 0x48#8), (1, 0x45#8), (2, 0x4C#8), (3, 0x4C#8), (4, 0x4F#8), (5, 0x0B#8), (6, 0x0B#8), (7, 0x0B#8),
      (8, 0x0B#8), (9, 0x0B#8), (10, 0x0B#8), (11, 0x0B#8), (12, 0x0B#8), (13, 0x0B#8), (14, 0x0B#8), (15, 0x0B#8)] }

/-- `REJECTED` with `MSG_TOO_LONG` (V-E13). -/
def rejected : State := { State.reset with phase := .rejected, err := .msgTooLong }

/-- `ENCRYPTED`, one block (the ciphertext is not looked at). -/
def encrypted : State := { State.reset with phase := .encrypted, msgLen := 5#32, dataLen := 16#32 }

/-- The command word `v` pending. -/
def pend (v : Word) (s : State) : State := { s with busy := true, pending := v }

/-- The events `es` to come. -/
def withHost (es : List HostEvent) (s : State) : State := { s with host := es }

/-- What `f` sees of the state after one step. -/
def after {α : Type} (f : State → α) (s : State) : Option α :=
  match step s with
  | .next t => some (f t)
  | .fault _ => none
  | .refused _ => none

/-! `Instr.wellFormed`: for each check an ill-formed term, and the terms just inside it (30_encoding.md R83). -/

theorem test_illegal_needs_fields_of_no_command :
    Instr.wellFormed (.illegal 0#24 0x03#8) = false ∧ Instr.wellFormed (.illegal 0#24 0x00#8) = false := by decide

theorem test_illegal_by_op : Instr.wellFormed (.illegal 0#24 0x04#8) = true := by decide

theorem test_illegal_by_rsvd : Instr.wellFormed (.illegal 1#24 0x03#8) = true := by decide

/-! Decoding: words written out from 30_encoding.md R80 to R83, `RSVD` in bits 31..8, `OP` in bits 7..0. -/

theorem test_decode_nop : decode 0b000000000000000000000000_00000000#32 = .nop := by decide
theorem test_decode_pad : decode 0b000000000000000000000000_00000001#32 = .pad := by decide
theorem test_decode_encrypt : decode 0b000000000000000000000000_00000010#32 = .encrypt := by decide
theorem test_decode_zeroize : decode 0b000000000000000000000000_00000011#32 = .zeroize := by decide

/-- V-E10: 0x00000104. -/
theorem test_decode_illegal_rsvd :
    decode 0b000000000000000000000001_00000100#32 = .illegal 1#24 4#8 := by decide

/-- V-E9: 0x000000FF. -/
theorem test_decode_illegal_op : decode 0b000000000000000000000000_11111111#32 = .illegal 0#24 0xFF#8 := by decide

theorem test_decodeTableWord : decodeTableWord 32 2 = some .encrypt ∧ decodeTableWord 33 2 = none := by decide

/-! The commands. -/

/-- R183's worked example: `STATUS` stays 0x0000FF00. -/
theorem test_nop_status : after status (pend 0x00000000#32 loaded) = some 0x0000FF00#32 := by decide +kernel

/-- V-P3, V-P11, R102's worked example: the padded buffer of "HELLO", `STATUS` 0x0000FF02, `DATA_LEN` 16. -/
theorem test_pad_hello :
    after (fun t => (t.buf, status t, t.dataLen)) (pend 0x00000001#32 loaded) =
      some (padded.buf, 0x0000FF02#32, 16#32) := by decide +kernel

/-- V-P8, V-E6, V-E4: 240 bytes are padded to 256, 241 are too long (checked before the key), the IV is not complete. -/
theorem test_pad_limits :
    after (fun t => (t.dataLen, t.buf.read 255, t.buf.read 239)) (pend 0x00000001#32 { loaded with msgLen := 240#32 }) =
      some (256#32, 0x10#8, 0x00#8) ∧
    after status (pend 0x00000001#32 { State.reset with msgLen := 241#32 }) = some 0x00000016#32 ∧
    after status (pend 0x00000001#32 { loaded with ivw := 0x7#4 }) = some 0x00000036#32 := by decide +kernel

/-- V-C2, V-C14, program P1: the ciphertext of "HELLO", `STATUS`, and both lengths kept. -/
theorem test_encrypt_hello :
    after (fun t => (busRead32 0x100 t, busRead32 0x104 t, busRead32 0x108 t, busRead32 0x10C t, status t, t.msgLen,
      t.dataLen)) (pend 0x00000002#32 padded) =
      some (0xDD3E65B8#32, 0x0BF6F0BE#32, 0xCC391F0C#32, 0xBE28233E#32, 0x00000004#32, 5#32, 16#32) := by
  decide +kernel

/-- V-C15: ENCRYPT in `IDLE`. -/
theorem test_encrypt_idle : after status (pend 0x00000002#32 loaded) = some 0x00000046#32 := by decide +kernel

/-- V-E17: ZEROIZE in `REJECTED` leaves the reset state. -/
theorem test_zeroize_rejected : after id (pend 0x00000003#32 rejected) = some State.reset := by decide +kernel

/-- V-E18: ZEROIZE in `PADDED`. -/
theorem test_zeroize_padded : after id (pend 0x00000003#32 padded) = some State.reset := by decide +kernel

/-- V-E12: an illegal word in `ENCRYPTED` comes before `SEQUENCE` and erases the lengths. -/
theorem test_illegal_encrypted :
    after (fun t => (status t, t.dataLen)) (pend 0x00000005#32 encrypted) = some (0x00000056#32, 0#32) := by
  decide +kernel

/-- V-E16: 0x00000103 is not ZEROIZE in `REJECTED`. -/
theorem test_illegal_rejected : after id (pend 0x00000103#32 rejected) = some rejected := by decide +kernel

/-- V-E5: a placed PAD right after reset runs at once: `KEY_MISSING`. -/
theorem test_withFetchWord : after status (State.reset.withFetchWord 32 1) = some 0x00000026#32 := by decide +kernel

/-! The bus. -/

/-- V-B9: `BUF[252..256) = 01 02 03 04`. -/
theorem test_write_top_word :
    after (fun t => (t.buf, busRead32 0x1FC t)) (withHost [.write 32 0x1FC 0x04030201#32] State.reset) =
      some ([(252, 1#8), (253, 2#8), (254, 3#8), (255, 4#8)], 0x04030201#32) := by decide +kernel

/-- V-B14, R31: the key bytes of `KEY[0] = 0x03020100`, and `KEYW`. -/
theorem test_write_key :
    after (fun t => ((keyBytes t)[1], (keyBytes t)[3], t.keyw)) (withHost [.write 32 0x010 0x03020100#32] State.reset) =
      some (1#8, 3#8, 0x1#4) := by decide +kernel

/-- V-B10, V-B13: misaligned writes are bus errors that issue nothing. -/
theorem test_misaligned :
    after id (withHost [.write 32 0x001 1#32] loaded) = some { loaded with responses := [.busError 0x001] } := by
  decide +kernel

/-- V-B12: a 16-bit read of `STATUS`. -/
theorem test_narrow : after (fun t => t.responses) (withHost [.read 16 0x004] loaded) = some [.busError 0x004] := by
  decide +kernel

/-- V-E21: busy reads. -/
theorem test_busy_reads :
    busRead32 0x004 (pend 1#32 loaded) = 0x0000FF01#32 ∧ busRead32 0x100 (pend 1#32 loaded) = 0#32 ∧
      busRead32 0x008 (pend 1#32 loaded) = 0#32 := by decide +kernel

/-- V-B7: a write to `MSG_LEN` in `PADDED` is ignored. -/
theorem test_padded_write : after id (withHost [.write 32 0x008 7#32] padded) = some padded := by decide +kernel

/-- V-E24: reset while `BUSY = 1`. -/
theorem test_reset_busy : after id (withHost [.reset] (pend 2#32 padded)) = some State.reset := by decide +kernel

/-- R54's worked example, through the expansion of LOADKEY (R87). -/
theorem test_loadKey : hostLoadKey (Vector.ofFn fun n => BitVec.ofNat 8 n.val) =
    [.write 32 0x010 0x03020100#32, .write 32 0x014 0x07060504#32, .write 32 0x018 0x0B0A0908#32,
      .write 32 0x01C 0x0F0E0D0C#32] := by decide +kernel

/-- Program P1: the writes of LOADMSG "HELLO". -/
theorem test_loadMsg : hostLoadMsg [0x48#8, 0x45#8, 0x4C#8, 0x4C#8, 0x4F#8] =
    [.write 32 0x008 5#32, .write 32 0x100 0x4C4C4548#32, .write 32 0x104 0x0000004F#32] := by decide +kernel

/-! The AES engine and CBC. -/

/-- V-G1 to V-G4. -/
theorem test_gf : xtime 0x57#8 = 0xae#8 ∧ xtime 0x80#8 = 0x1b#8 ∧ gfMul 0x57#8 0x83#8 = 0xc1#8 ∧
    gfMul 0x57#8 0x13#8 = 0xfe#8 := by decide +kernel

/-- V-G5 to V-G13. -/
theorem test_sbox : gfInv 0x53#8 = 0xca#8 ∧ gfInv 0x02#8 = 0x8d#8 ∧ gfInv 0x00#8 = 0x00#8 ∧ sbox 0x00#8 = 0x63#8 ∧
    sbox 0x01#8 = 0x7c#8 ∧ sbox 0x53#8 = 0xed#8 ∧ sbox 0x10#8 = 0xca#8 ∧ sbox 0xc9#8 = 0xdd#8 ∧
    sbox 0xff#8 = 0x16#8 := by decide +kernel

/-- V-M1, V-M2, V-M5. -/
theorem test_mixColumn : mixColumn #v[0xdb#8, 0x13#8, 0x53#8, 0x45#8] = #v[0x8e#8, 0x4d#8, 0xa1#8, 0xbc#8] ∧
    mixColumn #v[0xf2#8, 0x0a#8, 0x22#8, 0x5c#8] = #v[0x9f#8, 0xdc#8, 0x58#8, 0x9d#8] ∧
    mixColumn #v[0xd4#8, 0xd4#8, 0xd4#8, 0xd5#8] = #v[0xd5#8, 0xd5#8, 0xd7#8, 0xd6#8] := by decide +kernel

/-- V-A6, round 1: after ShiftRows. -/
theorem test_shiftRows : storeState (shiftRows (loadState
    #v[0xd4#8, 0x27#8, 0x11#8, 0xae#8, 0xe0#8, 0xbf#8, 0x98#8, 0xf1#8, 0xb8#8, 0xb4#8, 0x5d#8, 0xe5#8, 0x1e#8, 0x41#8,
      0x52#8, 0x30#8])) =
    #v[0xd4#8, 0xbf#8, 0x5d#8, 0x30#8, 0xe0#8, 0xb4#8, 0x52#8, 0xae#8, 0xb8#8, 0x41#8, 0x11#8, 0xf1#8, 0x1e#8, 0x27#8,
      0x98#8, 0xe5#8] := by decide +kernel

/-- V-K1: `RK[10]`. -/
theorem test_keyExpansion : (keyExpansion
    #v[0x2b#8, 0x7e#8, 0x15#8, 0x16#8, 0x28#8, 0xae#8, 0xd2#8, 0xa6#8, 0xab#8, 0xf7#8, 0x15#8, 0x88#8, 0x09#8, 0xcf#8,
      0x4f#8, 0x3c#8])[10] =
    #v[0xd0#8, 0x14#8, 0xf9#8, 0xa8#8, 0xc9#8, 0xee#8, 0x25#8, 0x89#8, 0xe1#8, 0x3f#8, 0x0c#8, 0xc8#8, 0xb6#8, 0x63#8,
      0x0c#8, 0xa6#8] := by decide +kernel

/-- V-C5: two blocks, the first of them V-A2 (FIPS-197 C.1), the second a full block of padding. -/
theorem test_cbc_two_blocks : cbcEncrypt (Vector.ofFn fun n => BitVec.ofNat 8 n.val) zeroBlock
    (pkcs7 ((List.range 16).map fun n => BitVec.ofNat 8 (0x11 * n))) =
    [0x69#8, 0xc4#8, 0xe0#8, 0xd8#8, 0x6a#8, 0x7b#8, 0x04#8, 0x30#8, 0xd8#8, 0xcd#8, 0xb7#8, 0x80#8, 0x70#8, 0xb4#8,
      0xc5#8, 0x5a#8, 0x9e#8, 0x97#8, 0x8e#8, 0x6d#8, 0x16#8, 0xb0#8, 0x86#8, 0x57#8, 0x0e#8, 0xf7#8, 0x94#8, 0xef#8,
      0x97#8, 0x98#8, 0x42#8, 0x32#8] := by decide +kernel

/-! Witnesses: for every statement with hypotheses, states and operands that meet them together, clause by clause, at
boundary values of the ranges. -/

theorem reset_inv : State.reset.Inv where
  idle := by decide
  padded := by decide
  encrypted := by decide
  rejected := by intro h; cases h
  pendingClear := by decide
  hiddenClear := by decide
  bufCanonical := by decide

theorem padded_inv : padded.Inv where
  idle := by decide
  padded := by decide
  encrypted := by decide
  rejected := by intro h; cases h
  pendingClear := by decide
  hiddenClear := by decide
  bufCanonical := by decide

theorem rejected_inv : rejected.Inv where
  idle := by decide
  padded := by decide
  encrypted := by decide
  rejected := fun _ => ⟨by decide, by decide, by decide, by decide, by decide, by decide, fun _ => rfl, by decide, by decide⟩
  pendingClear := by decide
  hiddenClear := by decide
  bufCanonical := by decide

theorem encrypted_inv : encrypted.Inv where
  idle := by decide
  padded := by decide
  encrypted := by decide
  rejected := by intro h; cases h
  pendingClear := by decide
  hiddenClear := by decide
  bufCanonical := by decide

/-- The invariant does not look at the host's side, and a pending command keeps it. -/
theorem busy_inv (v : Word) : (pend v padded).Inv :=
  ⟨padded_inv.idle, padded_inv.padded, padded_inv.encrypted, padded_inv.rejected, nofun, padded_inv.hiddenClear,
    padded_inv.bufCanonical⟩

theorem witness_DecodeOfEncode : (Instr.illegal 0#24 0x04#8).wellFormed = true ∧
    (Instr.illegal 0xFFFFFF#24 0x00#8).wellFormed = true := by decide

theorem witness_IllegalWordsExactly :
    decode 0x00000004#32 = .illegal 0#24 4#8 ∧ decode 0x00000100#32 = .illegal 1#24 0#8 ∧ loaded.phase ≠ .rejected := by
  decide

theorem witness_StepRunsPendingCommand :
    ((pend 0#32 loaded).host = [] ∧ (pend 0#32 loaded).busy = true ∧
      exec (decode (pend 0#32 loaded).pending) (pend 0#32 loaded) = .next (pend 0#32 loaded)) ∧
    ((withHost [.engineStep] (pend 0#32 loaded)).host = .engineStep :: [] ∧
      (withHost [.engineStep] (pend 0#32 loaded)).busy = true ∧
      exec (decode (withHost [.engineStep] (pend 0#32 loaded)).pending)
        { withHost [.engineStep] (pend 0#32 loaded) with host := [] } = .next (pend 0#32 loaded)) ∧
    ((pend 2#32 { padded with dataLen := 15#32 }).host = [] ∧ (pend 2#32 { padded with dataLen := 15#32 }).busy = true ∧
      exec (decode (pend 2#32 { padded with dataLen := 15#32 }).pending) (pend 2#32 { padded with dataLen := 15#32 }) =
        .refused .paddedLengthBreach) ∧
    ((withHost [.engineStep] (pend 2#32 { padded with dataLen := 15#32 })).host = .engineStep :: [] ∧
      (withHost [.engineStep] (pend 2#32 { padded with dataLen := 15#32 })).busy = true ∧
      exec (decode (withHost [.engineStep] (pend 2#32 { padded with dataLen := 15#32 })).pending)
        { withHost [.engineStep] (pend 2#32 { padded with dataLen := 15#32 }) with host := [] } =
        .refused .paddedLengthBreach) :=
  ⟨⟨rfl, rfl, rfl⟩, ⟨rfl, rfl, rfl⟩, ⟨rfl, rfl, rfl⟩, ⟨rfl, rfl, rfl⟩⟩

theorem witness_PlacedCommandRunsNext : decodeTableWord 32 0 = some .nop ∧
    exec .nop { loaded with busy := true, pending := BitVec.ofNat 32 (0 % 2 ^ 32) } = .next (pend 0#32 loaded) :=
  ⟨rfl, rfl⟩

theorem witness_EngineStepNeedsBusy :
    ((withHost [.engineStep] loaded).host = .engineStep :: [] ∧ (withHost [.engineStep] loaded).busy = false) ∧
    (loaded.host = [] ∧ loaded.busy = false) := by decide

theorem witness_PendingCommandCompletes :
    (pend 2#32 padded).Inv ∧ (pend 2#32 padded).host = [] ∧ (pend 2#32 padded).busy = true :=
  ⟨busy_inv 2#32, rfl, rfl⟩

theorem witness_BusyHidesTheBlock :
    ((withHost [.read 32 0x1FC] (pend 1#32 loaded)).host = .read 32 0x1FC :: [] ∧
      (withHost [.read 32 0x1FC] (pend 1#32 loaded)).busy = true ∧ 0x1FC < 0x200 ∧ 0x1FC % 4 = 0 ∧ 0x1FC ≠ 0x004) ∧
    ((withHost [.write 32 0x000 3#32] (pend 1#32 loaded)).host = .write 32 0x000 3#32 :: [] ∧
      (withHost [.write 32 0x000 3#32] (pend 1#32 loaded)).busy = true ∧ 0x000 < 0x200 ∧ 0x000 % 4 = 0) ∧
    ((withHost [.read 32 0x004] (pend 1#32 loaded)).host = .read 32 0x004 :: [] ∧
      (withHost [.read 32 0x004] (pend 1#32 loaded)).busy = true) := by decide

theorem witness_BusReadValues :
    (withHost [.read 32 0x1FC] loaded).host = .read 32 0x1FC :: [] ∧ 0x1FC < 0x200 ∧ 0x1FC % 4 = 0 := by decide

theorem witness_BufferWordLanes : loaded.busy = false := rfl

theorem witness_BadAccessIsBusError :
    ((withHost [.read 8 0x1FC] loaded).host = .read 8 0x1FC :: [] ∧ 0x1FC < 0x200 ∧ (8 ≠ 32 ∨ 0x1FC % 4 ≠ 0)) ∧
    ((withHost [.write 32 0x1FF 0#32] loaded).host = .write 32 0x1FF 0#32 :: [] ∧ 0x1FF < 0x200 ∧
      (32 ≠ 32 ∨ 0x1FF % 4 ≠ 0)) := by decide

theorem witness_GoodAccessIsNoBusError :
    ((withHost [.read 32 0x000] loaded).host = .read 32 0x000 :: [] ∧ 0x000 < 0x200 ∧ 0x000 % 4 = 0) ∧
    ((withHost [.write 32 0x1FC 0#32] loaded).host = .write 32 0x1FC 0#32 :: [] ∧ 0x1FC < 0x200 ∧ 0x1FC % 4 = 0) := by
  decide

theorem witness_OutsideTheRegionRefused :
    ((withHost [.read 32 0x200] loaded).host = .read 32 0x200 :: [] ∧ 0x200 ≤ 0x200) ∧
    ((withHost [.write 8 0x201 0#32] loaded).host = .write 8 0x201 0#32 :: [] ∧ 0x200 ≤ 0x201) := by decide

theorem witness_ReadsRevealNoKey :
    (withHost [.read 32 0x010] loaded).host = .read 32 0x010 :: [] ∧
      step (withHost [.read 32 0x010] loaded) = .next { loaded with responses := [.data 0#32] } :=
  ⟨rfl, rfl⟩

theorem witness_CmdWriteIssues :
    ((withHost [.write 32 0x000 9#32] loaded).host = .write 32 0x000 9#32 :: [] ∧
      (withHost [.write 32 0x000 9#32] loaded).busy = false) ∧
    ((withHost [.write 32 0x000 9#32] (pend 1#32 loaded)).host = .write 32 0x000 9#32 :: [] ∧
      (withHost [.write 32 0x000 9#32] (pend 1#32 loaded)).busy = true) := by decide

theorem witness_IdleWriteEffects : loaded.busy = false ∧ loaded.phase = .idle ∧
    (withHost [.write 32 0x008 7#32] loaded).host = .write 32 0x008 7#32 :: [] ∧
    (withHost [.write 32 0x01C 7#32] loaded).host = .write 32 (0x010 + 4 * (3 : Fin 4).val) 7#32 :: [] ∧
    (withHost [.write 32 0x02C 7#32] loaded).host = .write 32 (0x020 + 4 * (3 : Fin 4).val) 7#32 :: [] := by decide

theorem witness_BufferWriteStoresLanes : loaded.busy = false ∧ loaded.phase = .idle ∧ loaded.buf.wf = true ∧
    (withHost [.write 32 0x1FC 7#32] loaded).host = .write 32 (0x100 + 4 * (63 : Fin 64).val) 7#32 :: [] := by decide

theorem witness_IgnoredWrites :
    ((withHost [.write 32 0x1FC 7#32] padded).host = .write 32 0x1FC 7#32 :: [] ∧
      (withHost [.write 32 0x1FC 7#32] padded).phase ≠ .idle ∧ 0x1FC < 0x200 ∧ 0x1FC % 4 = 0 ∧ 0x1FC ≠ 0x000) ∧
    ((withHost [.write 32 0x0FC 7#32] loaded).host = .write 32 0x0FC 7#32 :: [] ∧
      (0x0FC = 0x004 ∨ 0x0FC = 0x00C ∨ (0x030 ≤ 0x0FC ∧ 0x0FC < 0x100 ∧ 0x0FC % 4 = 0))) := by decide

theorem witness_ReservedOffsets :
    ((withHost [.read 32 0x0FC] loaded).host = .read 32 0x0FC :: [] ∧ 0x030 ≤ 0x0FC ∧ 0x0FC ≤ 0x0FC ∧
      0x0FC % 4 = 0) ∧
    ((withHost [.write 32 0x030 7#32] loaded).host = .write 32 0x030 7#32 :: [] ∧ 0x030 ≤ 0x030 ∧ 0x030 ≤ 0x0FC ∧
      0x030 % 4 = 0) := by decide

theorem witness_ReadAfterWrite : loaded.busy = false ∧ loaded.phase = .idle ∧ loaded.buf.wf = true ∧
    (withHost [.write 32 0x100 0#32, .read 32 0x100] loaded).host =
      .write 32 (0x100 + 4 * (0 : Fin 64).val) 0#32 :: .read 32 (0x100 + 4 * (0 : Fin 64).val) :: [] ∧
    (withHost [.write 32 0x008 0xFFFFFFFF#32, .read 32 0x008] loaded).host =
      .write 32 0x008 0xFFFFFFFF#32 :: .read 32 0x008 :: [] := by decide

theorem witness_KeyByteOrder :
    ({ loaded with key := #v[0x03020100#32, 0x07060504#32, 0x0B0A0908#32, 0x0F0E0D0C#32] } : State).key =
      #v[0x03020100#32, 0x07060504#32, 0x0B0A0908#32, 0x0F0E0D0C#32] := rfl

theorem witness_AccessesKeepPhaseAndErr :
    (withHost [.read 32 0x010] loaded).host = .read 32 0x010 :: [] ∧
      (HostEvent.read 32 0x010 : HostEvent) ≠ .engineStep ∧ (HostEvent.read 32 0x010 : HostEvent) ≠ .reset ∧
      step (withHost [.read 32 0x010] loaded) = .next { loaded with responses := [.data 0#32] } ∧
    (withHost [.write 32 0x000 1#32] loaded).host = .write 32 0x000 1#32 :: [] ∧
      step (withHost [.write 32 0x000 1#32] loaded) = .next (pend 1#32 loaded) :=
  ⟨rfl, by decide, by decide, rfl, rfl, rfl⟩

theorem witness_KeyImmutableAfterPad :
    padded.phase ≠ .idle ∧ step (withHost [.write 32 0x010 1#32] padded) = .next padded ∧ step padded = .next padded :=
  ⟨by decide, rfl, rfl⟩

theorem witness_ErrorPriority :
    (rejected.phase = .rejected ∧ Instr.pad ≠ .zeroize) ∧ loaded.phase ≠ .rejected ∧
    (padded.phase = .padded ∨ padded.phase = .encrypted) ∧ (loaded.phase = .idle ∨ loaded.phase = .encrypted) ∧
    ({ loaded with msgLen := 241#32 }.phase = .idle ∧ 240 < ({ loaded with msgLen := 241#32 } : State).msgLen.toNat) ∧
    (({ loaded with msgLen := 240#32, keyw := 0x7#4 } : State).phase = .idle ∧
      ({ loaded with msgLen := 240#32, keyw := 0x7#4 } : State).msgLen.toNat ≤ 240 ∧
      ({ loaded with msgLen := 240#32, keyw := 0x7#4 } : State).keyw ≠ 0xF#4) ∧
    (({ loaded with ivw := 0xE#4 } : State).phase = .idle ∧ ({ loaded with ivw := 0xE#4 } : State).msgLen.toNat ≤ 240 ∧
      ({ loaded with ivw := 0xE#4 } : State).keyw = 0xF#4 ∧ ({ loaded with ivw := 0xE#4 } : State).ivw ≠ 0xF#4) := by
  decide

theorem witness_CipherSetupNeverRaised :
    step { loaded with err := .cipherSetup } = .next { loaded with err := .cipherSetup } ∧
      ({ loaded with err := .cipherSetup } : State).err = .cipherSetup := ⟨rfl, rfl⟩

theorem witness_RejectedIgnoresOtherWords :
    (pend 0x00000103#32 rejected).phase = .rejected ∧ (pend 0x00000103#32 rejected).pending ≠ 0x00000003#32 ∧
      (pend 0x00000103#32 rejected).host = [] ∧ (pend 0x00000103#32 rejected).busy = true ∧
    (withHost [.engineStep] (pend 0x00000103#32 rejected)).phase = .rejected ∧
      (withHost [.engineStep] (pend 0x00000103#32 rejected)).pending ≠ 0x00000003#32 ∧
      (withHost [.engineStep] (pend 0x00000103#32 rejected)).host = .engineStep :: [] ∧
      (withHost [.engineStep] (pend 0x00000103#32 rejected)).busy = true := by decide

theorem witness_OnlyZeroizeOrResetLeaveRejected :
    rejected.phase = .rejected ∧ step rejected = .next rejected ∧
      step (pend 0x00000003#32 rejected) = .next State.reset ∧
      step (withHost [.reset] rejected) = .next State.reset := ⟨rfl, rfl, rfl, rfl⟩

theorem witness_NopHasNoEffect : (pend 0#32 loaded).host = [] ∧ (pend 0#32 loaded).busy = true ∧
    (pend 0#32 loaded).pending = 0x00000000#32 ∧ status (pend 0#32 loaded) = 0x0000FF01#32 ∧
    (withHost [.engineStep] (pend 0#32 loaded)).host = .engineStep :: [] ∧
    (withHost [.engineStep] (pend 0#32 loaded)).busy = true ∧
    (withHost [.engineStep] (pend 0#32 loaded)).pending = 0x00000000#32 := by decide +kernel

theorem witness_ReachableStatesMeetInvariant :
    Host.Core.run core 2 { State.reset with host := [.write 32 0x000 0#32] } = .next State.reset := rfl

theorem witness_ZeroizeStartsNewRun : (pend 3#32 rejected).host = [] ∧ (pend 3#32 rejected).busy = true ∧
    (pend 3#32 rejected).pending = 0x00000003#32 ∧
    (withHost [.engineStep] (pend 3#32 rejected)).host = .engineStep :: [] ∧
    (withHost [.engineStep] (pend 3#32 rejected)).busy = true ∧
    (withHost [.engineStep] (pend 3#32 rejected)).pending = 0x00000003#32 := by decide

theorem witness_IllegalWordRejects : encrypted.phase ≠ .rejected := by decide

theorem witness_PadWritesThePadding :
    ({ loaded with msgLen := 240#32 } : State).phase = .idle ∧
      ({ loaded with msgLen := 240#32 } : State).msgLen.toNat ≤ 240 ∧
      ({ loaded with msgLen := 240#32 } : State).keyw = 0xF#4 ∧
      ({ loaded with msgLen := 240#32 } : State).ivw = 0xF#4 := by decide

theorem witness_EncryptIsCbc :
    ({ padded with dataLen := 256#32 } : State).phase = .padded ∧
      ({ padded with dataLen := 256#32 } : State).dataLen.toNat % 16 = 0 ∧
      ({ padded with dataLen := 256#32 } : State).dataLen.toNat ≤ 256 ∧
      ({ padded with dataLen := 256#32 } : State).buf.wf = true := by decide

theorem witness_EncryptLengthBreachRefused :
    (({ padded with dataLen := 257#32 } : State).phase = .padded ∧
      (({ padded with dataLen := 257#32 } : State).dataLen.toNat % 16 ≠ 0 ∨
        256 < ({ padded with dataLen := 257#32 } : State).dataLen.toNat)) ∧
    (({ padded with dataLen := 272#32 } : State).phase = .padded ∧
      (({ padded with dataLen := 272#32 } : State).dataLen.toNat % 16 ≠ 0 ∨
        256 < ({ padded with dataLen := 272#32 } : State).dataLen.toNat)) ∧
    (padded.Inv ∧ padded.phase = .padded) :=
  ⟨by decide, by decide, padded_inv, rfl⟩

theorem witness_EncryptErasesKeyMaterial :
    (padded.phase ≠ .rejected ∧ exec .encrypt padded = .next (encryptBuffer padded)) ∧
    (loaded.phase ≠ .rejected ∧ exec .encrypt loaded = .next (reject .sequence loaded)) :=
  ⟨⟨by decide, by rw [exec, execEncrypt, unlessRejected, if_neg (by decide)]; rfl⟩, by decide, rfl⟩

theorem witness_SecondEncryptRejected :
    padded.phase = .padded ∧ exec .encrypt padded = .next (encryptBuffer padded) :=
  ⟨rfl, witness_EncryptErasesKeyMaterial.1.2⟩

theorem witness_PadThenEncryptIsCbcOfPkcs7 : loaded.phase = .idle ∧ loaded.msgLen.toNat ≤ 240 ∧
    loaded.keyw = 0xF#4 ∧ loaded.ivw = 0xF#4 ∧ loaded.buf.wf = true := by decide

theorem witness_LegalPhaseTransitions :
    exec .pad loaded = .next (padBuffer loaded) ∧ exec .encrypt padded = .next (encryptBuffer padded) ∧
      exec .zeroize rejected = .next (startNewRun rejected) ∧ exec .pad padded = .next (reject .sequence padded) ∧
      exec .nop padded = .next padded ∧ exec .pad rejected = .next rejected :=
  ⟨rfl, witness_EncryptErasesKeyMaterial.1.2, rfl, rfl, rfl, rfl⟩

theorem witness_CommandsKeepTheHostSide : exec .zeroize rejected = .next (startNewRun rejected) := rfl

theorem witness_ResetClearsEverything : (withHost [.reset] padded).host = .reset :: [] := rfl

theorem witness_StepKeepsInvariant : (pend 3#32 padded).Inv ∧ step (pend 3#32 padded) = .next State.reset :=
  ⟨busy_inv 3#32, rfl⟩

theorem witness_StepKeepsBufferCanonical :
    (pend 3#32 padded).buf.wf = true ∧ step (pend 3#32 padded) = .next State.reset := ⟨by decide, rfl⟩

theorem witness_EveryCommandCompletes : padded.Inv ∧ rejected.Inv := ⟨padded_inv, rejected_inv⟩

theorem witness_RunEndLeavesNoSecret :
    (encrypted.Inv ∧ encrypted.runEnded = true) ∧ (rejected.Inv ∧ rejected.runEnded = true) :=
  ⟨⟨encrypted_inv, rfl⟩, rejected_inv, rfl⟩

theorem witness_PaddingRange : (List.replicate 240 0x41#8).length ≤ 240 ∧
    (List.replicate 240 0x41#8).length % 16 = 0 := by rw [List.length_replicate]; decide

theorem witness_SboxTableIsAffineOfInverse : (0x01#8 : Byte) ≠ 0x00#8 := by decide

theorem witness_KeyScheduleRecurrence : 4 ≤ 43 ∧ 43 < 44 ∧ 4 ≤ 4 ∧ 4 < 44 := by decide

/-- The AES states of the hypotheses of AesRoundTransformations, round by round. -/
def roundStates (rk : Vector Block 11) (b : Block) : Nat → AesState
  | 0 => addRoundKey rk[0] (loadState b)
  | r + 1 => addRoundKey (rk.getD (r + 1) zeroBlock) (mixColumns (shiftRows (subBytes (roundStates rk b r))))

theorem witness_AesRoundTransformations :
    roundStates zeroRoundKeys zeroBlock 0 = addRoundKey zeroRoundKeys[0] (loadState zeroBlock) ∧
    ∀ r : Fin 9, roundStates zeroRoundKeys zeroBlock (r.val + 1) = addRoundKey zeroRoundKeys[r.val + 1]
      (mixColumns (shiftRows (subBytes (roundStates zeroRoundKeys zeroBlock r.val)))) :=
  ⟨rfl, fun r => by rw [roundStates]; congr 1; fin_cases r <;> rfl⟩

theorem witness_AesEncryptIsInjective : aesEncrypt zeroRoundKeys zeroBlock = aesEncrypt zeroRoundKeys zeroBlock := rfl

theorem witness_CbcChaining : 0 < [zeroBlock].length ∧ 0 + 1 < [zeroBlock, zeroBlock].length ∧
    (cbcChain zeroRoundKeys zeroBlock [zeroBlock, zeroBlock])[0]? =
      some (aesEncrypt zeroRoundKeys (xorBlock zeroBlock zeroBlock)) := ⟨by decide, by decide, rfl⟩

theorem witness_EncryptPreservesLength : (List.replicate 32 0x00#8).length % 16 = 0 ∧ padded.phase = .padded ∧
    exec .encrypt padded = .next (encryptBuffer padded) :=
  ⟨by decide, rfl, witness_EncryptErasesKeyMaterial.1.2⟩

theorem witness_ZeroIvFirstBlockIsAes :
    16 ≤ (List.replicate 16 0x00#8).length ∧ (List.replicate 16 0x00#8).length % 16 = 0 := by decide

end Sys2Proof.Tests
end

section
/-!
The data path of R2: PAD leaves `PKCS7(M)` in the buffer, and the in-place loop of ENCRYPT turns the data bytes into
their `CBC_Encrypt`.
-/

namespace Sys2Proof.Machine

variable {s : State}

/-! The bytes of the buffer -/

/-- Bytes written are read back, in a canonical buffer. -/
theorem Memory.readBytes_writeBytes {m : Memory} {i : Nat} {p : List Byte} (hi : i + p.length ≤ 256)
    (hw : m.wf = true) : (m.writeBytes i p).readBytes i p.length = p := by
  apply List.ext_getElem
  · simp only [length_readBytes]
  · intro k _ hk
    rw [getElem_readBytes, read_writeBytes_inside hk hi hw]

/-- R11: the blocks of bytes read are the first block read and the blocks of the bytes after it. -/
theorem blocksOf_readBytes_succ (m : Memory) (i n : Nat) :
    blocksOf (n + 1) (m.readBytes i (16 + 16 * n)) =
      m.readBlock i :: blocksOf n (m.readBytes (i + 16) (16 * n)) := by
  rw [blocksOf, Memory.blockOfBytes_readBytes m i (by omega), Memory.readBytes_add,
    List.drop_left' (Memory.length_readBytes m i 16)]

/-! PAD (R100, R102) -/

/-- R102: PAD completes when it raises no error. -/
theorem exec_pad_of_padError_none (h : padError s = none) : exec .pad s = .next (padBuffer s) := by
  obtain ⟨hp, -⟩ | ⟨-, c, hc, -⟩ | ⟨-, -, he⟩ := execPad_cases s
  · simp [(padError_eq_none.1 h).1] at hp
  · simp [h] at hc
  · exact he

/-- R100, R102: PAD leaves `PKCS7(M)` in `BUF[0 .. DATA_LEN)`. -/
theorem dataBytes_padBuffer (h : s.msgLen.toNat ≤ 240) (hw : s.buf.wf = true) :
    (padBuffer s).dataBytes = pkcs7 s.message := by
  have hmsg : (padBuffer s).buf.readBytes 0 s.msgLen.toNat = s.message :=
    Memory.readBytes_congr fun j _ hj => Memory.read_writeBytes_outside s.buf (.inl (by omega))
  have hpad : (padBuffer s).buf.readBytes s.msgLen.toNat (padding s.msgLen.toNat).length =
      padding s.msgLen.toNat :=
    Memory.readBytes_writeBytes (by rw [length_padding]; omega) hw
  rw [State.dataBytes, toNat_padBuffer_dataLen h, ← length_padding, Memory.readBytes_add, Nat.zero_add, hmsg, hpad,
    pkcs7, State.message, Memory.length_readBytes]

/-! ENCRYPT (R160, R161) -/

/-- R161: ENCRYPT completes in `PADDED` on a length that is a multiple of 16 and fits the buffer. -/
theorem exec_encrypt_of_padded (hp : s.phase = .padded) (h16 : s.dataLen.toNat % 16 = 0)
    (hle : s.dataLen.toNat ≤ 256) : exec .encrypt s = .next (encryptBuffer s) := by
  obtain ⟨hr, -⟩ | ⟨-, hn, -⟩ | ⟨-, hb, -⟩ | ⟨-, -, -, he⟩ := execEncrypt_cases s
  · simp [hp] at hr
  · exact absurd hp hn
  · omega
  · exact he

/-- The loop body leaves the ciphertext block in its place (R161). -/
theorem readBytes_encryptBlock {i : Nat} (hi : 16 * i + 16 ≤ 256) (hw : s.buf.wf = true) :
    (encryptBlock s i).buf.readBytes (16 * i) 16 = (encryptBlock s i).chain.toList := by
  rw [encryptBlock_buf, encryptBlock_chain, Memory.readBytes_writeBlock _ hi hw]

/-- The loop from block `i` on replaces the plaintext blocks by their CBC chain (R160, R161): in place, each block is
read before it is overwritten, and no later round touches it again. -/
theorem readBytes_encryptBlocks {n i : Nat} (hi : 16 * (i + n) ≤ 256) (hw : s.buf.wf = true) :
    (encryptBlocks n i s).buf.readBytes (16 * i) (16 * n) =
      (cbcChain s.rk s.chain (blocksOf n (s.buf.readBytes (16 * i) (16 * n)))).flatMap Vector.toList := by
  induction n generalizing i s with
  | zero => rfl
  | succ n ih =>
    have hdone : (encryptBlocks n (i + 1) (encryptBlock s i)).buf.readBytes (16 * i) 16 =
        (encryptBlock s i).chain.toList := by
      rw [← readBytes_encryptBlock (by omega) hw]
      exact Memory.readBytes_congr fun j _ hj => read_encryptBlocks_outside _ (.inl (by omega))
    have htodo : (encryptBlock s i).buf.readBytes (16 * (i + 1)) (16 * n) =
        s.buf.readBytes (16 * (i + 1)) (16 * n) :=
      Memory.readBytes_congr fun j hj _ => read_encryptBlocks_outside (n := 1) s (.inr (by omega))
    have hwf : (encryptBlock s i).buf.wf = true := wf_encryptBlocks (n := 1) (by omega) hw
    rw [show 16 * (n + 1) = 16 + 16 * n by omega, encryptBlocks, Memory.readBytes_add, hdone,
      blocksOf_readBytes_succ, show 16 * i + 16 = 16 * (i + 1) by omega, ih (by omega) hwf, htodo,
      encryptBlock_rk, encryptBlock_chain]
    rfl

/-- R160, R161: ENCRYPT turns `BUF[0 .. DATA_LEN)` into its `CBC_Encrypt` under the key and the IV. -/
theorem dataBytes_encryptBuffer (h16 : s.dataLen.toNat % 16 = 0) (hle : s.dataLen.toNat ≤ 256)
    (hw : s.buf.wf = true) :
    (encryptBuffer s).dataBytes = cbcEncrypt (keyBytes s) (ivBytes s) s.dataBytes := by
  obtain ⟨n, hn⟩ : ∃ n, s.dataLen.toNat = 16 * n := ⟨s.dataLen.toNat / 16, by omega⟩
  have hloop := readBytes_encryptBlocks (s := beginCbc s) (n := n) (i := 0) (by omega) hw
  rw [beginCbc_rk, beginCbc_chain, beginCbc_buf, Nat.mul_zero] at hloop
  rw [State.dataBytes, encryptBuffer_dataLen, encryptBuffer_buf, cbcEncrypt, State.dataBytes,
    Memory.length_readBytes, hn, Config.blockSize, Nat.mul_div_cancel_left n (by decide), hloop]

/-- Settles O40: PAD leaves `PKCS7(M)` with the key and the IV untouched, on a length that ENCRYPT accepts. -/
theorem padThenEncryptIsCbcOfPkcs7 : Obligations.PadThenEncryptIsCbcOfPkcs7 := by
  intro s hp hlen hk hiv hw
  have hdata := dataBytes_padBuffer hlen hw
  have hdl := toNat_padBuffer_dataLen hlen
  have h16 : (padBuffer s).dataLen.toNat % 16 = 0 := by omega
  have hle : (padBuffer s).dataLen.toNat ≤ 256 := by omega
  have hcbc := dataBytes_encryptBuffer h16 hle (wf_padBuffer hlen hw)
  rw [hdata] at hcbc
  exact ⟨padBuffer s, encryptBuffer (padBuffer s), exec_pad_of_padError_none (padError_eq_none.2 ⟨hp, hlen, hk, hiv⟩),
    hdata, exec_encrypt_of_padded (padBuffer_phase s) h16 hle, encryptBuffer_phase _, hcbc⟩

end Sys2Proof.Machine
end

section
/-!
Host accesses (20_memory.md): what the step answers to an aligned 32-bit access and to a bad one, what a read returns
register by register, and which writes leave the block as it was.
-/

namespace Sys2Proof.Machine

variable {s : State} {width off : Nat} {v : Word} {rest : List HostEvent}

/-! The step on an access to the region (R52, R56, R57) -/

/-- R56: an aligned 32-bit read of the region answers its value and changes nothing of the block. -/
theorem step_of_aligned_read (h : s.host = .read 32 off :: rest) (hoff : off < 0x200) (ha : off % 4 = 0) :
    step s = .next { s with host := rest, responses := .data (busRead32 off s) :: s.responses } := by
  rw [step_of_read h, hostRead, access_good hoff ha]; rfl

/-- R57: an aligned 32-bit write to the region is performed. -/
theorem step_of_aligned_write (h : s.host = .write 32 off v :: rest) (hoff : off < 0x200) (ha : off % 4 = 0) :
    step s = .next (busWrite32 off v { s with host := rest }) := by
  rw [step_of_write h, hostWrite, access_good hoff ha]

/-- R52: a read of the wrong width or alignment is answered by the bus error alone. -/
theorem step_of_bad_read (h : s.host = .read width off :: rest) (hoff : off < 0x200)
    (hb : width ≠ 32 ∨ off % 4 ≠ 0) :
    step s = .next { s with host := rest, responses := .busError off :: s.responses } := by
  rw [step_of_read h, hostRead, access_bad hoff hb]; rfl

/-- R52: a write of the wrong width or alignment is answered by the bus error alone. -/
theorem step_of_bad_write (h : s.host = .write width off v :: rest) (hoff : off < 0x200)
    (hb : width ≠ 32 ∨ off % 4 ≠ 0) :
    step s = .next { s with host := rest, responses := .busError off :: s.responses } := by
  rw [step_of_write h, hostWrite, access_bad hoff hb]; rfl

/-! The value of a read (R56, R58, R59) -/

/-- R51: `STATUS` stands at 0x004 and nowhere else. -/
theorem registerAt_eq_status : registerAt off = .status ↔ off = 0x004 := by
  constructor
  · unfold registerAt
    split_ifs <;> simp [*]
  · rintro rfl; rfl

/-- R58: `STATUS` reads its value, busy or not. -/
@[simp] theorem busRead32_status (s : State) : busRead32 0x004 s = status s := rfl

/-- R58: while `BUSY = 1` every other offset reads 0. -/
theorem busRead32_of_busy (hb : s.busy = true) (hne : off ≠ 0x004) : busRead32 off s = 0#32 := by
  rw [busRead32, if_neg (mt registerAt_eq_status.1 hne), if_pos hb]

/-- R56: while `BUSY = 0` an offset reads the value of its register. -/
theorem busRead32_of_not_busy (hb : s.busy = false) : busRead32 off s = registerValue (registerAt off) s := by
  unfold busRead32
  split
  next hr => rw [hr]; rfl
  next => simp [hb]

/-- R59: a reserved offset reads 0, busy or not. -/
theorem busRead32_reserved (hlo : 0x030 ≤ off) (hhi : off < 0x100) (s : State) : busRead32 off s = 0#32 := by
  simp [busRead32, registerAt_reserved hlo hhi, registerValue]

/-- R56: a buffer word reads its four bytes, the lowest index lowest. -/
theorem busRead32_buffer (hb : s.busy = false) (hlo : 0x100 ≤ off) (hhi : off < 0x200) (ha : off % 4 = 0) :
    busRead32 off s = wordOfLanes (s.buf.read (off - 0x100)) (s.buf.read (off - 0x100 + 1))
      (s.buf.read (off - 0x100 + 2)) (s.buf.read (off - 0x100 + 3)) := by
  obtain ⟨j, rfl⟩ : ∃ j : Fin 64, off = 0x100 + 4 * j.val := ⟨⟨(off - 0x100) / 4, by omega⟩, by simp only; omega⟩
  rw [busRead32_of_not_busy hb, registerAt_bufw, Nat.add_sub_cancel_left, registerValue]

/-- R56: below the buffer and besides `STATUS`, only `MSG_LEN` and `DATA_LEN` read as anything but 0. -/
theorem busRead32_register (hb : s.busy = false) (hst : off ≠ 0x004) (hhi : off < 0x100) (ha : off % 4 = 0) :
    busRead32 off s = if off = 0x008 then s.msgLen else if off = 0x00C then s.dataLen else 0#32 := by
  rw [busRead32_of_not_busy hb]
  obtain rfl | rfl | rfl | rfl | ⟨k, rfl⟩ | ⟨k, rfl⟩ | ⟨hlo, -⟩ | ⟨j, rfl⟩ := registerAt_cases (by omega) ha
  · rfl
  · exact absurd rfl hst
  · rfl
  · rfl
  · rw [registerAt_key, if_neg (by omega), if_neg (by omega), registerValue]
  · rw [registerAt_iv, if_neg (by omega), if_neg (by omega), registerValue]
  · rw [registerAt_reserved hlo hhi, if_neg (by omega), if_neg (by omega), registerValue]
  · omega

/-! Fields of `STATUS` (R29) -/

theorem status_busy (s : State) : (status s).extractLsb' 0 1 = busyBit s.busy := by
  ext i hi
  obtain rfl : i = 0 := by omega
  simp [status]

theorem status_phase (s : State) : (status s).extractLsb' 1 2 = phaseBits s.phase := by
  ext i hi
  obtain rfl | rfl : i = 0 ∨ i = 1 := by omega
  · simp [status]
  · simp [status]

/-! Writes that change nothing (R58, R59) -/

/-- R58: while `BUSY = 1` every write is ignored. -/
theorem busWrite32_of_busy (hb : s.busy = true) (off : Nat) (v : Word) : busWrite32 off v s = s := if_pos hb

/-- R59: a write to a reserved offset is ignored, busy or not. -/
theorem busWrite32_reserved (hlo : 0x030 ≤ off) (hhi : off < 0x100) (v : Word) (s : State) :
    busWrite32 off v s = s := by
  rw [busWrite32, registerAt_reserved hlo hhi]
  exact ite_self s

/-! The statements -/

/-- Settles O12, by the cases of R56: `STATUS`, busy, a register below the buffer, a buffer word. -/
theorem busReadValues : Obligations.BusReadValues := by
  intro s off rest h hoff ha
  rw [step_of_aligned_read h hoff ha]
  congr
  by_cases hst : off = 0x004
  · subst hst; rfl
  cases hb : s.busy with
  | true => rw [busRead32_of_busy hb hst, if_neg hst, if_pos rfl]
  | false =>
    rw [if_neg hst, if_neg Bool.false_ne_true]
    by_cases hlt : off < 0x100
    · rw [busRead32_register hb hst hlt ha, if_pos hlt]
    · rw [busRead32_buffer hb (by omega) hoff ha, if_neg (by omega), if_neg (by omega), if_neg hlt, wordOfLanes]

/-- Settles O11: `BUSY` gates every read but that of `STATUS`, and every write. -/
theorem busyHidesTheBlock : Obligations.BusyHidesTheBlock := by
  refine ⟨fun s off rest h hb hoff ha hne => ?_, fun s off v rest h hb hoff ha => ?_, fun s rest h hb => ⟨?_, ?_, ?_⟩⟩
  · rw [step_of_aligned_read h hoff ha, busRead32_of_busy hb hne]
  · rw [step_of_aligned_write h hoff ha, busWrite32_of_busy (s := { s with host := rest }) hb]
  · rw [step_of_aligned_read h (by decide) (by decide), busRead32_status]
  · rw [status_busy, hb]; rfl
  · exact status_phase s

/-- Settles O14: the check of width and alignment comes before the access is performed. -/
theorem badAccessIsBusError : Obligations.BadAccessIsBusError :=
  ⟨fun _ _ _ _ h hoff hb => step_of_bad_read h hoff hb, fun _ _ _ _ _ h hoff hb => step_of_bad_write h hoff hb⟩

/-- Settles O22: the register map sends 0x030..0x0FC to the reserved register, which has no value and no effect. -/
theorem reservedOffsets : Obligations.ReservedOffsets := by
  refine ⟨fun s off rest h hlo hhi ha => ?_, fun s off v rest h hlo hhi ha => ?_⟩
  · rw [step_of_aligned_read h (by omega) ha, busRead32_reserved hlo (by omega)]
  · rw [step_of_aligned_write h (by omega) ha, busWrite32_reserved hlo (by omega)]

end Sys2Proof.Machine
end

section
/-!
The decoder (30_encoding.md R80 to R83): what each word decodes to, that the decoded command has the word it came from,
and the two consequences for the words of the four commands and for the illegal ones.
-/

namespace Sys2Proof.Machine

variable {v : Word} {i : Instr} {rsvd : BitVec 24} {op : BitVec 8} {s : State}

/-! The fields of a word (R80) and of an illegal word (R83) -/

/-- R80: a word is its two fields, `RSVD` above `OP`. -/
theorem rsvdField_append_opField (v : Word) : rsvdField v ++ opField v = v :=
  (BitVec.extractLsb'_append_extractLsb'_eq_extractLsb' rfl).trans BitVec.extractLsb'_eq_self

/-- R83: the fields of an illegal word. -/
theorem illegalFields_eq_true : illegalFields rsvd op = true ↔ rsvd ≠ 0#24 ∨ 4 ≤ op.toNat := by
  rw [illegalFields, Bool.or_eq_true, decide_eq_true_iff, decide_eq_true_iff]

/-! What a word decodes to (R81 to R83) -/

/-- Everything the decoder can answer: one of the rows of R81 with its fields, or an illegal command (R83). -/
theorem decode_cases (v : Word) :
    (rsvdField v = 0#24 ∧ opField v = 0x00#8 ∧ decode v = .nop) ∨
    (rsvdField v = 0#24 ∧ opField v = 0x01#8 ∧ decode v = .pad) ∨
    (rsvdField v = 0#24 ∧ opField v = 0x02#8 ∧ decode v = .encrypt) ∨
    (rsvdField v = 0#24 ∧ opField v = 0x03#8 ∧ decode v = .zeroize) ∨
    (illegalFields (rsvdField v) (opField v) = true ∧ decode v = .illegal (rsvdField v) (opField v)) := by
  unfold decode
  split_ifs with hr h0 h1 h2 h3
  · exact .inr (.inr (.inr (.inr ⟨illegalFields_eq_true.2 (.inl hr), rfl⟩)))
  · exact .inl ⟨not_not.1 hr, h0, rfl⟩
  · exact .inr (.inl ⟨not_not.1 hr, h1, rfl⟩)
  · exact .inr (.inr (.inl ⟨not_not.1 hr, h2, rfl⟩))
  · exact .inr (.inr (.inr (.inl ⟨not_not.1 hr, h3, rfl⟩)))
  · have hop : 4 ≤ (opField v).toNat := by bv_omega
    exact .inr (.inr (.inr (.inr ⟨illegalFields_eq_true.2 (.inr hop), rfl⟩)))

/-- R81, R83: no bit of a word is lost by decoding it. -/
theorem encode_decode (v : Word) : encode (decode v) = v := by
  conv_rhs => rw [← rsvdField_append_opField v]
  obtain ⟨hr, ho, hd⟩ | ⟨hr, ho, hd⟩ | ⟨hr, ho, hd⟩ | ⟨hr, ho, hd⟩ | ⟨-, hd⟩ := decode_cases v
  · rw [hd, hr, ho]; rfl
  · rw [hd, hr, ho]; rfl
  · rw [hd, hr, ho]; rfl
  · rw [hd, hr, ho]; rfl
  · rw [hd]; rfl

/-- A command whose word decodes to it is decoded from no other word. -/
theorem decode_eq_iff (h : decode (encode i) = i) : decode v = i ↔ v = encode i := by
  constructor
  · rintro rfl; exact (encode_decode v).symm
  · rintro rfl; exact h

/-- R83: a word decodes to an illegal command exactly when its fields are those of no row of R81. -/
theorem exists_decode_eq_illegal :
    (∃ rsvd op, decode v = .illegal rsvd op) ↔ illegalFields (rsvdField v) (opField v) = true := by
  obtain ⟨hr, ho, hd⟩ | ⟨hr, ho, hd⟩ | ⟨hr, ho, hd⟩ | ⟨hr, ho, hd⟩ | ⟨hf, hd⟩ := decode_cases v
  · simp [hr, ho, hd, illegalFields]
  · simp [hr, ho, hd, illegalFields]
  · simp [hr, ho, hd, illegalFields]
  · simp [hr, ho, hd, illegalFields]
  · exact ⟨fun _ => hf, fun _ => ⟨_, _, hd⟩⟩

/-- R83: executing an illegal command outside `REJECTED` is `Reject(ILLEGAL_CMD)`. -/
theorem exec_illegal_of_ne_rejected (hp : s.phase ≠ .rejected) :
    exec (.illegal rsvd op) s = .next (reject .illegalCmd s) :=
  unlessRejected_of_ne hp

/-! The statements -/

/-- Settles O2: the word of a command is read off the command, and each of the four words decodes to its own. -/
theorem commandWordsExactly : Obligations.CommandWordsExactly := fun _ =>
  ⟨decode_eq_iff rfl, decode_eq_iff rfl, decode_eq_iff rfl, decode_eq_iff rfl⟩

/-- Settles O5: an illegal word has the fields of no row of R81, and outside `REJECTED` the gate of R182 lets it reject. -/
theorem illegalWordsExactly : Obligations.IllegalWordsExactly := by
  refine ⟨fun v => ?_, fun v rsvd op s hd hp => ?_⟩
  · rw [exists_decode_eq_illegal, illegalFields_eq_true, rsvdField, opField]
    tauto
  · rw [hd, exec_illegal_of_ne_rejected hp]

end Sys2Proof.Machine
end

section
/-!
The padder (40_padder.md R100 to R103): the bytes and the length of `PKCS7(d)`, and what PAD leaves at each index of the
buffer.
-/

namespace Sys2Proof.Machine

variable {s : State}

/-! The padding as a byte string (R100, R101) -/

/-- R100: the number of padding bytes. -/
theorem padLen_eq (n : Nat) : padLen n = 16 - n % 16 := rfl

/-- R100: each padding byte holds the number of padding bytes. -/
theorem getElem_padding {n k : Nat} (hk : k < (padding n).length) :
    (padding n)[k] = BitVec.ofNat 8 (16 - n % 16) := List.getElem_replicate _

/-- R100: the bytes of `PKCS7(d)`. -/
theorem pkcs7_eq (d : List Byte) :
    pkcs7 d = d ++ List.replicate (16 - d.length % 16) (BitVec.ofNat 8 (16 - d.length % 16)) := rfl

/-- R101: the padding fills the message up to the next multiple of 16, by a full block if it stands at one. -/
theorem length_pkcs7 (d : List Byte) : (pkcs7 d).length = (d.length / 16 + 1) * 16 := by
  rw [pkcs7, List.length_append, length_padding]
  omega

/-! The buffer after PAD (R103) -/

/-- R103: the bytes that PAD writes. No hypothesis on the buffer is needed, since no padding byte is 0. -/
theorem read_padBuffer_inside {i : Nat} (hlen : s.msgLen.toNat ≤ 240) (hlo : s.msgLen.toNat ≤ i)
    (hhi : i < (padBuffer s).dataLen.toNat) :
    (padBuffer s).buf.read i = BitVec.ofNat 8 (16 - s.msgLen.toNat % 16) := by
  rw [toNat_padBuffer_dataLen hlen] at hhi
  obtain ⟨k, rfl⟩ := Nat.exists_eq_add_of_le hlo
  have hk : k < (padding s.msgLen.toNat).length := by rw [length_padding]; omega
  rw [padBuffer_buf, Memory.read_writeBytes_inside_of_ne _ hk fun _ => padding_ne_zero, getElem_padding]

/-- R103: the bytes that PAD leaves alone. -/
theorem read_padBuffer_outside {i : Nat} (hlen : s.msgLen.toNat ≤ 240)
    (h : i < s.msgLen.toNat ∨ (padBuffer s).dataLen.toNat ≤ i) : (padBuffer s).buf.read i = s.buf.read i := by
  rw [toNat_padBuffer_dataLen hlen, ← length_padding] at h
  exact Memory.read_writeBytes_outside s.buf h

/-! The statements -/

/-- Settles O35: PAD raises no error here, and its effect is the write of the padding and the two updates beside it. -/
theorem padWritesThePadding : Obligations.PadWritesThePadding := by
  intro s hp hlen hk hiv
  have hdl := toNat_padBuffer_dataLen hlen
  exact ⟨padBuffer s, exec_pad_of_padError_none (padError_eq_none.2 ⟨hp, hlen, hk, hiv⟩), rfl, hdl, by omega,
    fun _ => read_padBuffer_inside hlen, fun _ => read_padBuffer_outside hlen⟩

/-- Settles O50: the range and the lengths by arithmetic on the length of `PKCS7(d)`, the full block by its bytes. -/
theorem paddingRange : Obligations.PaddingRange := by
  intro d hd
  have hpad := padLen_eq d.length
  have hlen := length_pkcs7 d
  exact ⟨by omega, by omega, fun h => by rw [pkcs7_eq, h], pkcs7_eq d, hlen, by omega, by omega, by omega⟩

end Sys2Proof.Machine
end

section
/-!
The AES engine (41_aes_engine.md R123, R124, R128): the S-box as the affine map of the inverse, and loading and storing
the AES state.
-/

namespace Sys2Proof.Machine

/-! The affine map (R123) -/

/-- A bit of a rotated bit vector stands `r` places higher, around the end. -/
theorem getLsbD_rotateRight_of_lt {w r i : Nat} (x : BitVec w) (hr : r < w) (hi : i < w) :
    (x.rotateRight r).getLsbD i = x.getLsbD ((i + r) % w) := by
  rw [BitVec.getLsbD_rotateRight, Nat.mod_eq_of_lt hr]
  by_cases h : i + r < w
  · rw [decide_eq_true (show i < w - r by omega), cond_true, Nat.mod_eq_of_lt h, Nat.add_comm]
  · have hmod : (i + r) % w = i - (w - r) := by
      rw [Nat.mod_eq_sub_mod (by omega), Nat.mod_eq_of_lt (by omega)]
      omega
    rw [decide_eq_false (show ¬ i < w - r by omega), cond_false, decide_eq_true hi, Bool.true_and, hmod]

/-- R123: the affine map bit by bit. -/
theorem getLsbD_affineMap (b : Byte) {i : Nat} (hi : i < 8) :
    (affineMap b).getLsbD i =
      (b.getLsbD i ^^ b.getLsbD ((i + 4) % 8) ^^ b.getLsbD ((i + 5) % 8) ^^ b.getLsbD ((i + 6) % 8)
        ^^ b.getLsbD ((i + 7) % 8) ^^ (0x63#8).getLsbD i) := by
  simp only [affineMap, BitVec.getLsbD_xor, getLsbD_rotateRight_of_lt b (by decide : 4 < 8) hi,
    getLsbD_rotateRight_of_lt b (by decide : 5 < 8) hi, getLsbD_rotateRight_of_lt b (by decide : 6 < 8) hi,
    getLsbD_rotateRight_of_lt b (by decide : 7 < 8) hi]

/-- The map that undoes `affineMap`: it reads the inverse of `x` off the table's byte for `x`. -/
def affineInv (y : Byte) : Byte := y.rotateLeft 1 ^^^ y.rotateLeft 3 ^^^ y.rotateLeft 6 ^^^ 0x05#8

theorem affineInv_affineMap (b : Byte) : affineInv (affineMap b) = b := by
  revert b
  decide +kernel

/-! The S-box (R123, R124) -/

/-- R123, R124: the 256 entries of the table, each computed again. -/
theorem sbox_eq_affineMap_gfInv (x : Byte) : sbox x = affineMap (gfInv x) := by
  revert x
  decide +kernel

/-- R122: a nonzero byte times the byte that the table gives as its inverse. -/
theorem gfMul_affineInv_sbox {x : Byte} (hx : x ≠ 0x00#8) : gfMul x (affineInv (sbox x)) = 0x01#8 := by
  revert x
  decide +kernel

/-- R123: `gfInv` is the inverse, since it is the byte that the table gives as one. -/
theorem gfMul_gfInv {x : Byte} (hx : x ≠ 0x00#8) : gfMul x (gfInv x) = 0x01#8 := by
  rw [← affineInv_affineMap (gfInv x), ← sbox_eq_affineMap_gfInv, gfMul_affineInv_sbox hx]

/-! Loading and storing the AES state (R128) -/

/-- R128: storing a loaded block gives it back. -/
@[simp] theorem storeState_loadState (b : Block) : storeState (loadState b) = b :=
  Vector.ext fun n hn => by simp only [getElem_storeState, getElem_loadState, Nat.mod_add_div]

/-- R128: byte `r + 4c` of a stored state is that of row `r` and column `c`. -/
theorem getElem_storeState_add_mul (s : AesState) {r c : Nat} (hr : r < 4) (hc : c < 4) :
    (storeState s)[r + 4 * c] = s[r][c] := by
  have hmod : (r + 4 * c) % 4 = r := by omega
  have hdiv : (r + 4 * c) / 4 = c := by omega
  simp only [getElem_storeState, hmod, hdiv]

/-- R128: loading a stored state gives it back. -/
@[simp] theorem loadState_storeState (s : AesState) : loadState (storeState s) = s :=
  aesState_ext fun _ _ hr hc => by rw [getElem_loadState, getElem_storeState_add_mul s hr hc]

/-! The statements -/

/-- Settles O52: the table is checked against the affine map entry by entry, and the map is undone to find the inverse
in the table. -/
theorem sboxTableIsAffineOfInverse : Obligations.SboxTableIsAffineOfInverse :=
  ⟨sbox_eq_affineMap_gfInv, fun _ => gfMul_gfInv, by decide +kernel, fun b i => getLsbD_affineMap b i.isLt⟩

/-- Settles O56: byte `n` of a block stands at row `n % 4` and column `n / 4` of the state. -/
theorem loadStoreRoundTrip : Obligations.LoadStoreRoundTrip :=
  ⟨storeState_loadState, loadState_storeState, fun b r c => getElem_loadState b r.val c.val r.isLt c.isLt,
    fun s r c => getElem_storeState_add_mul s r.isLt c.isLt⟩

end Sys2Proof.Machine
end

section
/-!
ENCRYPT as a command (42_cbc.md R163, R166): what an ENCRYPT that completes has done, and the length of
`CBC_Encrypt`.
-/

namespace Sys2Proof.Machine

variable {s t : State}

/-! ENCRYPT that completes (R161, R182) -/

/-- R161: outside `REJECTED` an ENCRYPT that completes has taken the failure path, `Reject(SEQUENCE)`, or the success
path. -/
theorem exec_encrypt_next (hp : s.phase ≠ .rejected) (h : exec .encrypt s = .next t) :
    (s.phase ≠ .padded ∧ t = reject .sequence s) ∨ (s.phase = .padded ∧ t = encryptBuffer s) := by
  rw [exec] at h
  obtain ⟨hr, -⟩ | ⟨-, hn, he⟩ | ⟨-, -, he⟩ | ⟨hpad, -, -, he⟩ := execEncrypt_cases s
  · exact absurd hr hp
  · exact .inl ⟨hn, Host.Outcome.next.inj (h.symm.trans he)⟩
  · exact nomatch h.symm.trans he
  · exact .inr ⟨hpad, Host.Outcome.next.inj (h.symm.trans he)⟩

/-! The length of `CBC_Encrypt` (R166) -/

/-- R160: one ciphertext block for each plaintext block. -/
@[simp] theorem length_cbcChain (rk : Vector Block 11) (iv : Block) (ps : List Block) :
    (cbcChain rk iv ps).length = ps.length := by
  induction ps generalizing iv with
  | nil => rfl
  | cons p ps ih => rw [cbcChain, List.length_cons, ih, List.length_cons]

/-- R11: `blocksOf n` gives `n` blocks. -/
@[simp] theorem length_blocksOf (n : Nat) (p : List Byte) : (blocksOf n p).length = n := by
  induction n generalizing p with
  | zero => rfl
  | succ n ih => rw [blocksOf, List.length_cons, ih]

/-- R11: a block has 16 bytes. -/
theorem length_flatMap_toList (bs : List Block) : (bs.flatMap Vector.toList).length = 16 * bs.length := by
  simp [List.length_flatMap, Nat.mul_comm]

/-- R166: `CBC_Encrypt` gives 16 bytes for each full block of its input. -/
theorem length_cbcEncrypt (key iv : Block) (p : List Byte) :
    (cbcEncrypt key iv p).length = 16 * (p.length / 16) := by
  rw [cbcEncrypt, length_flatMap_toList, length_cbcChain, length_blocksOf, Config.blockSize]

/-! The statements -/

/-- Settles O38, by the two paths of an ENCRYPT that completes; the field lemmas of `reject` and of `encryptBuffer` say
that each erases. -/
theorem encryptErasesKeyMaterial : Obligations.EncryptErasesKeyMaterial := by
  intro s t hp h
  obtain ⟨-, rfl⟩ | ⟨-, rfl⟩ := exec_encrypt_next hp h
  · simp
  · simp

/-- Settles O59: the blocks of the input are all of it, and the success path of ENCRYPT keeps both lengths. -/
theorem encryptPreservesLength : Obligations.EncryptPreservesLength := by
  refine ⟨fun key iv p h16 => ?_, fun s t hp h => ?_⟩
  · rw [length_cbcEncrypt, Nat.mul_div_cancel' (Nat.dvd_of_mod_eq_zero h16)]
  · obtain ⟨hn, -⟩ | ⟨-, rfl⟩ := exec_encrypt_next (by simp [hp]) h
    · exact absurd hp hn
    · exact ⟨encryptBuffer_dataLen s, encryptBuffer_msgLen s⟩

end Sys2Proof.Machine
end

section
/-!
The issue of a command (43_control.md R180, R186): a write to `CMD` with `BUSY = 0` is `issueCommand`, whatever the word
and the phase.
-/

namespace Sys2Proof.Machine

variable {s : State} {v : Word}

/-- R57: while `BUSY = 0` a write has the effect of its register. -/
theorem busWrite32_of_not_busy (hb : s.busy = false) (off : Nat) (v : Word) :
    busWrite32 off v s = writeRegister (registerAt off) v s := if_neg (by simp [hb])

/-- R180: a write to `CMD` is judged by `BUSY` alone. -/
theorem busWrite32_cmd (hb : s.busy = false) : busWrite32 0x000 v s = issueCommand v s := by
  rw [busWrite32_of_not_busy hb, registerAt_cmd, writeRegister]

/-- Settles O18, by the two values of `BUSY`: the aligned write to `CMD` is performed as `issueCommand`, or ignored. -/
theorem cmdWriteIssues : Obligations.CmdWriteIssues := by
  refine ⟨fun s v rest h hb => ?_, fun s v rest h hb => ?_⟩
  · rw [step_of_aligned_write h (by decide) (by decide), busWrite32_cmd (s := { s with host := rest }) hb, issueCommand]
  · rw [step_of_aligned_write h (by decide) (by decide), busWrite32_of_busy (s := { s with host := rest }) hb]

end Sys2Proof.Machine
end

section
/-!
Errors and their return (60_exceptions.md R205, R207, R208): which error each command reports, and the ways out of
`REJECTED`.
-/

namespace Sys2Proof.Machine

variable {s t : State} {i : Instr} {c : ErrCode}

/-! Commands in `REJECTED` (R182, R185) -/

/-- R185: in `REJECTED` a command other than ZEROIZE has no effect. -/
theorem exec_of_rejected (hp : s.phase = .rejected) (hi : i ≠ .zeroize) : exec i s = .next s := by
  cases i with
  | nop => rfl
  | pad => exact unlessRejected_of_rejected hp
  | encrypt => exact unlessRejected_of_rejected hp
  | zeroize => exact absurd rfl hi
  | illegal rsvd op => exact unlessRejected_of_rejected hp

/-- R182: what a command that completes in `REJECTED` has done. -/
theorem exec_next_of_rejected (hp : s.phase = .rejected) (h : exec i s = .next t) :
    t = s ∨ (i = .zeroize ∧ t = startNewRun s) := by
  by_cases hi : i = .zeroize
  · subst hi
    exact .inr ⟨rfl, (Host.Outcome.next.inj h).symm⟩
  · rw [exec_of_rejected hp hi] at h
    exact .inl (Host.Outcome.next.inj h).symm

/-! The error of PAD (R102, R205) -/

theorem padError_of_ne_idle (hp : s.phase ≠ .idle) : padError s = some .sequence := if_pos hp

/-- R205: in `IDLE` the length is checked first. -/
theorem padError_of_msgTooLong (hp : s.phase = .idle) (hlen : 240 < s.msgLen.toNat) :
    padError s = some .msgTooLong := by
  simp [padError, Config.maxMsg, hp, hlen]

/-- R205: the key is checked once the length fits. -/
theorem padError_of_keyMissing (hp : s.phase = .idle) (hlen : s.msgLen.toNat ≤ 240) (hk : s.keyw ≠ 0xF#4) :
    padError s = some .keyMissing := by
  simp [padError, Config.maxMsg, hp, Nat.not_lt.2 hlen, complete_eq_false.2 hk]

/-- R205: the IV is checked last. -/
theorem padError_of_ivMissing (hp : s.phase = .idle) (hlen : s.msgLen.toNat ≤ 240) (hk : s.keyw = 0xF#4)
    (hiv : s.ivw ≠ 0xF#4) : padError s = some .ivMissing := by
  simp [padError, Config.maxMsg, hp, Nat.not_lt.2 hlen, hk, complete, hiv]

/-- R102: outside `REJECTED` the error that PAD raises is taken. -/
theorem exec_pad_of_padError_some (hp : s.phase ≠ .rejected) (h : padError s = some c) :
    exec .pad s = .next (reject c s) := by
  obtain ⟨hr, -⟩ | ⟨-, c', hc, he⟩ | ⟨-, hn, -⟩ := execPad_cases s
  · exact absurd hr hp
  · obtain rfl := Option.some.inj (h.symm.trans hc)
    exact he
  · simp [h] at hn

/-- R102: in `IDLE` the gate of R182 is open, so the error that PAD raises is taken. -/
theorem exec_pad_of_idle (hp : s.phase = .idle) (h : padError s = some c) : exec .pad s = .next (reject c s) :=
  exec_pad_of_padError_some (by simp [hp]) h

/-! The error of ENCRYPT (R161) -/

/-- R161: outside `PADDED` and `REJECTED` ENCRYPT is out of sequence. -/
theorem exec_encrypt_of_ne_padded (hp : s.phase ≠ .padded) (hr : s.phase ≠ .rejected) :
    exec .encrypt s = .next (reject .sequence s) := by
  obtain ⟨h, -⟩ | ⟨-, -, he⟩ | ⟨h, -⟩ | ⟨h, -⟩ := execEncrypt_cases s
  · exact absurd h hr
  · exact he
  · exact absurd h hp
  · exact absurd h hp

/-! Writes and the phase (R38) -/

/-- R38: no write of the host touches `PHASE` or `ERR`. -/
theorem busWrite32_phase_err (off : Nat) (v : Word) (s : State) :
    (busWrite32 off v s).phase = s.phase ∧ (busWrite32 off v s).err = s.err := by
  obtain h | ⟨-, -, h⟩ | ⟨-, -, ⟨-, h⟩ | ⟨k, -, h⟩ | ⟨k, -, h⟩ | ⟨j, -, h⟩⟩ := busWrite32_cases off v s <;>
    rw [h] <;> exact ⟨rfl, rfl⟩

/-! The statements -/

/-- Settles O28: the gate of R182 for `REJECTED`, then each check of PAD and of ENCRYPT in its order. -/
theorem errorPriority : Obligations.ErrorPriority := by
  refine ⟨fun s i => exec_of_rejected, fun s rsvd op => exec_illegal_of_ne_rejected, fun s hp => ?_, fun s hp => ?_,
    fun s hp hlen => exec_pad_of_idle hp (padError_of_msgTooLong hp hlen),
    fun s hp hlen hk => exec_pad_of_idle hp (padError_of_keyMissing hp hlen hk),
    fun s hp hlen hk hiv => exec_pad_of_idle hp (padError_of_ivMissing hp hlen hk hiv)⟩
  · have ⟨hr, hi⟩ : s.phase ≠ .rejected ∧ s.phase ≠ .idle := by obtain h | h := hp <;> simp [h]
    exact exec_pad_of_padError_some hr (padError_of_ne_idle hi)
  · have ⟨hr, hn⟩ : s.phase ≠ .rejected ∧ s.phase ≠ .padded := by obtain h | h := hp <;> simp [h]
    exact exec_encrypt_of_ne_padded hn hr

/-- Settles O31, by what a step can do: idling and the host's accesses keep `PHASE` and `ERR`, reset is the second
disjunct, and an engine step in `REJECTED` keeps the state or has run ZEROIZE, whose word is the only one to decode to
it. -/
theorem onlyZeroizeOrResetLeaveRejected : Obligations.OnlyZeroizeOrResetLeaveRejected := by
  intro s t hp h
  obtain ⟨-, -, rfl⟩ | ⟨u, hu, hhost, hb, w, hw, rfl⟩ | ⟨_, _, rest, -, r, rfl⟩ |
    ⟨_, off, v, rest, -, rfl | rfl⟩ | ⟨rest, hhost, rfl⟩ := step_cases h
  · exact .inl ⟨hp, rfl⟩
  · have hup : u.phase = .rejected := by rw [hu, hp]
    have hue : u.err = s.err := by rw [hu]
    obtain rfl | ⟨hz, rfl⟩ := exec_next_of_rejected hup hw
    · exact .inl ⟨hup, hue⟩
    · exact .inr (.inr ⟨rfl, rfl, hb, (decode_eq_iff (i := .zeroize) rfl).1 hz, hhost.imp And.left (⟨_, ·⟩)⟩)
  · exact .inl ⟨hp, rfl⟩
  · exact .inl ⟨hp, rfl⟩
  · obtain ⟨hphase, herr⟩ := busWrite32_phase_err off v { s with host := rest }
    exact .inl ⟨hphase.trans hp, herr⟩
  · exact .inr (.inl ⟨rfl, rfl, rest, hhost⟩)

end Sys2Proof.Machine
end

section
/-!
Writes that the block ignores while `BUSY = 0` (20_memory.md R57, 70_reset_and_hazards.md R235): outside `IDLE` a write
to anything but `CMD`, and in every phase a write to a read-only register.
-/

namespace Sys2Proof.Machine

variable {s : State} {off : Nat} {v : Word}

/-- R51: `CMD` stands at 0x000 and nowhere else. -/
theorem registerAt_eq_cmd : registerAt off = .cmd ↔ off = 0x000 := by
  constructor
  · unfold registerAt
    split_ifs <;> simp [*]
  · rintro rfl; rfl

/-- R235: outside `IDLE` a write to anything but `CMD` is ignored, busy or not. -/
theorem busWrite32_of_ne_idle (hp : s.phase ≠ .idle) (hne : off ≠ 0x000) : busWrite32 off v s = s := by
  obtain h | ⟨-, hcmd, -⟩ | ⟨-, hidle, -⟩ := busWrite32_cases off v s
  · exact h
  · exact absurd (registerAt_eq_cmd.1 hcmd) hne
  · exact absurd hidle hp

/-- R57: a write to `STATUS` is ignored, busy or not. -/
theorem busWrite32_status (v : Word) (s : State) : busWrite32 0x004 v s = s := ite_self s

/-- R57: a write to `DATA_LEN` is ignored, busy or not. -/
theorem busWrite32_dataLen (v : Word) (s : State) : busWrite32 0x00C v s = s := ite_self s

/-- Settles O21: `CMD` is the only register whose write needs no `IDLE`, and the read-only and reserved ones have no
effect at all. -/
theorem ignoredWrites : Obligations.IgnoredWrites := by
  refine ⟨fun s off v rest h hp hoff ha hne => ?_, fun s off v rest h hro => ?_⟩
  · rw [step_of_aligned_write h hoff ha, busWrite32_of_ne_idle (s := { s with host := rest }) hp hne]
  · obtain rfl | rfl | ⟨hlo, hhi, ha⟩ := hro
    · rw [step_of_aligned_write h (by decide) (by decide), busWrite32_status]
    · rw [step_of_aligned_write h (by decide) (by decide), busWrite32_dataLen]
    · rw [step_of_aligned_write h (by omega) ha, busWrite32_reserved hlo hhi]

end Sys2Proof.Machine
end

section
/-!
The round trip of the decoder (30_encoding.md R80 to R83): a well-formed command is decoded from its word, and every
word decodes to a well-formed command.
-/

namespace Sys2Proof.Machine

variable {v : Word} {i : Instr}

/-- R83: a word with the fields of an illegal word decodes to the illegal command with these fields. -/
theorem decode_of_illegalFields (h : illegalFields (rsvdField v) (opField v) = true) :
    decode v = .illegal (rsvdField v) (opField v) := by
  obtain ⟨hr, ho, -⟩ | ⟨hr, ho, -⟩ | ⟨hr, ho, -⟩ | ⟨hr, ho, -⟩ | ⟨-, hd⟩ := decode_cases v
  · exact absurd h (by rw [hr, ho]; decide)
  · exact absurd h (by rw [hr, ho]; decide)
  · exact absurd h (by rw [hr, ho]; decide)
  · exact absurd h (by rw [hr, ho]; decide)
  · exact hd

/-- R80 to R83: a well-formed command is decoded from its word. -/
theorem decode_encode (h : i.wellFormed = true) : decode (encode i) = i := by
  cases i with
  | nop => rfl
  | pad => rfl
  | encrypt => rfl
  | zeroize => rfl
  | illegal rsvd op =>
    obtain ⟨hop, hrsvd⟩ := Laws.EncodedFields.illegal rsvd op
    simp only [Laws.EncodedFields.opOf, Laws.EncodedFields.rsvdOf] at hop hrsvd
    have hf : illegalFields (rsvdField (encode (.illegal rsvd op))) (opField (encode (.illegal rsvd op))) = true := by
      rw [hop, hrsvd]; exact h
    rw [decode_of_illegalFields hf, hop, hrsvd]

/-- R83: every word decodes to a well-formed command. -/
theorem wellFormed_decode (v : Word) : (decode v).wellFormed = true := by
  obtain ⟨-, -, hd⟩ | ⟨-, -, hd⟩ | ⟨-, -, hd⟩ | ⟨-, -, hd⟩ | ⟨hf, hd⟩ := decode_cases v
  · rw [hd]; rfl
  · rw [hd]; rfl
  · rw [hd]; rfl
  · rw [hd]; rfl
  · rw [hd]; exact hf

/-- Settles O3: the four commands by evaluation, an illegal one by the fields of its word. -/
theorem decodeOfEncode : Obligations.DecodeOfEncode := fun _ => decode_encode

/-- Settles O4: the decoder keeps every bit of the word, and an illegal command is decoded from illegal fields alone. -/
theorem encodeOfDecode : Obligations.EncodeOfDecode := fun v => ⟨wellFormed_decode v, encode_decode v⟩

/-- Settles O1, by evaluation of the eight words. -/
theorem sampleWordsDecode : Obligations.SampleWordsDecode := by
  unfold Obligations.SampleWordsDecode
  decide

end Sys2Proof.Machine
end

section
/-!
The invariant of 10_state.md R37: it holds at reset, every command completes from it and gives it back at the end of the
engine step, and no event of the host breaks it. What follows for the runs from reset and for the end of a run.
-/

namespace Sys2Proof.Machine

variable {s t : State} {i : Instr} {c : ErrCode}

/-! What the invariant does not look at -/

/-- The invariant does not look at the host's side of the bus. -/
theorem State.Inv.setHostSide (h : s.Inv) (es : List HostEvent) (rs : List BusResponse) :
    State.Inv { s with host := es, responses := rs } :=
  ⟨h.idle, h.padded, h.encrypted, h.rejected, h.pendingClear, h.hiddenClear, h.bufCanonical⟩

/-- R37 item 5 is all that the invariant asks of `BUSY` and `PENDING`, and `retire` gives it. -/
theorem inv_retire (h : s.Inv) : (retire s).Inv :=
  ⟨h.idle, h.padded, h.encrypted, h.rejected, fun _ => rfl, h.hiddenClear, h.bufCanonical⟩

/-- R180: a pending command keeps the invariant, since item 5 speaks of `BUSY = 0` only. -/
theorem inv_issueCommand (h : s.Inv) (v : Word) : (issueCommand v s).Inv :=
  ⟨h.idle, h.padded, h.encrypted, h.rejected, nofun, h.hiddenClear, h.bufCanonical⟩

/-! Reset and the commands -/

/-- R37, R230: the invariant holds after reset, whatever stands on the host's side. -/
theorem inv_reset (es : List HostEvent) (rs : List BusResponse) :
    State.Inv { State.reset with host := es, responses := rs } where
  idle := fun _ => ⟨rfl, rfl⟩
  padded := nofun
  encrypted := nofun
  rejected := nofun
  pendingClear := fun _ => rfl
  hiddenClear := ⟨rfl, rfl, rfl⟩
  bufCanonical := rfl

/-- R184: ZEROIZE leaves the state after reset, but for what the engine step clears. -/
theorem retire_startNewRun (s : State) :
    retire (startNewRun s) = { State.reset with host := s.host, responses := s.responses } := rfl

/-- R30: a code that a command raises is one of 1..5. -/
theorem errBits_of_raisedCode (h : raisedCode c) : 1 ≤ (errBits c).toNat ∧ (errBits c).toNat ≤ 5 := by
  obtain ⟨hnone, hsetup⟩ := h
  cases c with
  | none => exact absurd rfl hnone
  | cipherSetup => exact absurd rfl hsetup
  | _ => decide

/-- R37 item 4: error entry meets the invariant, from every state. -/
theorem inv_retire_reject (hc : raisedCode c) (s : State) : (retire (reject c s)).Inv where
  idle := nofun
  padded := nofun
  encrypted := nofun
  rejected := fun _ => ⟨rfl, rfl, rfl, rfl, rfl, rfl, fun _ => rfl, errBits_of_raisedCode hc⟩
  pendingClear := fun _ => rfl
  hiddenClear := ⟨rfl, rfl, rfl⟩
  bufCanonical := rfl

/-- R37 item 2: a PAD without error meets the invariant. -/
theorem inv_retire_padBuffer (h : s.Inv) (he : padError s = none) : (retire (padBuffer s)).Inv := by
  obtain ⟨hp, hlen, hk, hiv⟩ := padError_eq_none.1 he
  exact {
    idle := nofun
    padded := fun _ => ⟨hk, hiv, hlen, toNat_padBuffer_dataLen hlen, (h.idle hp).2⟩
    encrypted := nofun
    rejected := nofun
    pendingClear := fun _ => rfl
    hiddenClear := h.hiddenClear
    bufCanonical := wf_padBuffer hlen h.bufCanonical }

/-- ENCRYPT keeps the canonical form of the buffer, on a length that fits it. -/
theorem wf_encryptBuffer (hle : s.dataLen.toNat ≤ 256) (hw : s.buf.wf = true) : (encryptBuffer s).buf.wf = true := by
  rw [encryptBuffer_buf]
  exact wf_encryptBlocks (by omega) hw

/-- R37 item 2: the length that PAD has set is a multiple of 16 in 16..256. -/
theorem State.Inv.padded_dataLen (h : s.Inv) (hp : s.phase = .padded) :
    s.dataLen.toNat % 16 = 0 ∧ 16 ≤ s.dataLen.toNat ∧ s.dataLen.toNat ≤ 256 := by
  obtain ⟨-, -, hlen, hdl, -⟩ := h.padded hp
  omega

/-- R37 item 3: an ENCRYPT without error meets the invariant. -/
theorem inv_retire_encryptBuffer (h : s.Inv) (hp : s.phase = .padded) : (retire (encryptBuffer s)).Inv := by
  obtain ⟨h16, hge, hle⟩ := h.padded_dataLen hp
  obtain ⟨-, -, -, -, herr⟩ := h.padded hp
  exact {
    idle := by simp
    padded := by simp
    encrypted := by simp [h16, hge, hle, herr]
    rejected := by simp
    pendingClear := fun _ => rfl
    hiddenClear := by simp
    bufCanonical := wf_encryptBuffer hle h.bufCanonical }

/-- R37: a command that completes meets the invariant at the end of the engine step. -/
theorem inv_retire_of_exec (h : s.Inv) (he : exec i s = .next t) : (retire t).Inv := by
  obtain ⟨rfl, -⟩ | ⟨c, hc, rfl, -⟩ | ⟨rfl, -⟩ | ⟨rfl, -, hp⟩ | ⟨rfl, -, hp, -⟩ := exec_cases he
  · exact inv_retire h
  · exact inv_retire_reject hc s
  · exact inv_reset _ _
  · exact inv_retire_padBuffer h hp
  · exact inv_retire_encryptBuffer h hp

/-- U1, R161: from the invariant no command stops. -/
theorem exists_exec_eq_next (h : s.Inv) (i : Instr) : ∃ t, exec i s = .next t := by
  cases i with
  | nop => exact ⟨s, rfl⟩
  | zeroize => exact ⟨_, rfl⟩
  | pad =>
    obtain ⟨-, he⟩ | ⟨-, c, -, he⟩ | ⟨-, -, he⟩ := execPad_cases s
    · exact ⟨_, he⟩
    · exact ⟨_, he⟩
    · exact ⟨_, he⟩
  | encrypt =>
    obtain ⟨-, he⟩ | ⟨-, -, he⟩ | ⟨hp, hb, -⟩ | ⟨-, -, -, he⟩ := execEncrypt_cases s
    · exact ⟨_, he⟩
    · exact ⟨_, he⟩
    · have := h.padded_dataLen hp
      omega
    · exact ⟨_, he⟩
  | illegal rsvd op =>
    obtain ⟨-, he⟩ | ⟨-, he⟩ := execIllegal_cases rsvd op s
    · exact ⟨_, he⟩
    · exact ⟨_, he⟩

/-! Writes of the host -/

@[simp] theorem length_lanes (v : Word) : (lanes v).length = 4 := rfl

/-- R57: a buffer word write stays inside the buffer, so it keeps the canonical form. -/
theorem wf_writeBytes_lanes (hw : s.buf.wf = true) (j : Fin 64) (v : Word) :
    (s.buf.writeBytes (4 * j.val) (lanes v)).wf = true :=
  Memory.wf_writeBytes (by rw [length_lanes]; omega) hw

/-- In `IDLE` the invariant leaves the inputs free: all it asks of them is the canonical form of the buffer. -/
theorem inv_setInputs (h : s.Inv) (hp : s.phase = .idle) (key iv : Vector Word 4) (keyw ivw : BitVec 4)
    (msgLen : Word) {buf : Memory} (hw : buf.wf = true) :
    State.Inv { s with key := key, iv := iv, keyw := keyw, ivw := ivw, msgLen := msgLen, buf := buf } where
  idle := h.idle
  padded := fun h => nomatch hp.symm.trans h
  encrypted := fun h => nomatch hp.symm.trans h
  rejected := fun h => nomatch hp.symm.trans h
  pendingClear := h.pendingClear
  hiddenClear := h.hiddenClear
  bufCanonical := hw

/-- R37, R57: a write of the host keeps the invariant. -/
theorem inv_busWrite32 (h : s.Inv) (off : Nat) (v : Word) : (busWrite32 off v s).Inv := by
  have hw := h.bufCanonical
  obtain he | ⟨-, -, he⟩ | ⟨-, hp, ⟨-, he⟩ | ⟨k, -, he⟩ | ⟨k, -, he⟩ | ⟨j, -, he⟩⟩ := busWrite32_cases off v s
  · rw [he]; exact h
  · rw [he]; exact inv_issueCommand h v
  · rw [he]; exact inv_setInputs h hp _ _ _ _ _ hw
  · rw [he]; exact inv_setInputs h hp _ _ _ _ _ hw
  · rw [he]; exact inv_setInputs h hp _ _ _ _ _ hw
  · rw [he]; exact inv_setInputs h hp _ _ _ _ _ (wf_writeBytes_lanes hw j v)

/-! Every step -/

/-- R37: a step that completes keeps the invariant. -/
theorem inv_step (h : s.Inv) (hs : step s = .next t) : t.Inv := by
  obtain ⟨-, -, rfl⟩ | ⟨u, hu, -, -, w, hw, rfl⟩ | ⟨_, _, rest, -, r, rfl⟩ | ⟨_, off, v, rest, -, rfl | rfl⟩ |
    ⟨rest, -, rfl⟩ := step_cases hs
  · exact h
  · have hinv : u.Inv := by rw [hu]; exact h.setHostSide _ _
    exact inv_retire_of_exec hinv hw
  · exact h.setHostSide rest (r :: s.responses)
  · exact h.setHostSide rest (.busError off :: s.responses)
  · exact inv_busWrite32 (h.setHostSide rest s.responses) off v
  · exact inv_reset rest s.responses

/-- Settles O45, by what a step can do: an engine step by its command, a write of the host by its register. -/
theorem stepKeepsInvariant : Obligations.StepKeepsInvariant := fun _ _ => inv_step

/-- Settles O44: `IDLE` with everything erased. -/
theorem resetMeetsInvariant : Obligations.ResetMeetsInvariant := inv_reset

/-- Settles O46, by induction on the steps: reset meets the invariant and every step keeps it. -/
theorem reachableStatesMeetInvariant : Obligations.ReachableStatesMeetInvariant :=
  fun es _ _ => run_keeps (fun _ _ => inv_step) (inv_reset es [])

/-- Settles O48: in `PADDED` the invariant excludes the one length on which ENCRYPT stops. -/
theorem everyCommandCompletes : Obligations.EveryCommandCompletes := by
  intro i s h
  obtain ⟨t, ht⟩ := exists_exec_eq_next h i
  exact ⟨t, ht, inv_retire_of_exec h ht⟩

/-- Settles O37: the third case of ENCRYPT, and the length that item 2 of R37 gives. -/
theorem encryptLengthBreachRefused : Obligations.EncryptLengthBreachRefused := by
  refine ⟨fun s hp hb => ?_, fun s h hp => h.padded_dataLen hp⟩
  obtain ⟨hr, -⟩ | ⟨-, hn, -⟩ | ⟨-, -, he⟩ | ⟨-, h16, hle, -⟩ := execEncrypt_cases s
  · exact nomatch hp.symm.trans hr
  · exact absurd hp hn
  · exact he
  · omega

/-- R37 item 4: in `REJECTED` the canonical buffer lists no cell. -/
theorem State.Inv.rejected_buf (h : s.Inv) (hp : s.phase = .rejected) : s.buf = [] := by
  obtain ⟨-, -, -, -, -, -, hbuf, -⟩ := h.rejected hp
  exact Memory.ext h.bufCanonical Memory.wf_nil hbuf

/-- R37 item 4: in `REJECTED` there is an error. -/
theorem State.Inv.rejected_err (h : s.Inv) (hp : s.phase = .rejected) : s.err ≠ .none := by
  obtain ⟨-, -, -, -, -, -, -, hone, -⟩ := h.rejected hp
  intro hnone
  rw [hnone] at hone
  exact absurd hone (by decide)

/-- Settles O49, by items 3, 4 and 6 of R37. -/
theorem runEndLeavesNoSecret : Obligations.RunEndLeavesNoSecret := by
  intro s h hend
  obtain ⟨hrk, hchain, hst⟩ := h.hiddenClear
  have hphase : s.phase = .encrypted ∨ s.phase = .rejected := by
    simp only [State.runEnded, Bool.and_eq_true, Bool.or_eq_true, decide_eq_true_eq] at hend
    exact hend.2
  obtain hp | hp := hphase
  · obtain ⟨hkey, hiv, -⟩ := h.encrypted hp
    exact ⟨hkey, hiv, hrk, hchain, hst, .inl hp⟩
  · obtain ⟨hkey, hiv, -, -, hmsg, hdata, -⟩ := h.rejected hp
    exact ⟨hkey, hiv, hrk, hchain, hst, .inr ⟨hp, hmsg, hdata, h.rejected_buf hp, h.rejected_err hp⟩⟩

end Sys2Proof.Machine
end

section
/-!
The commands (43_control.md R181 to R185, 42_cbc.md R161, R165): what none of them writes, and what each of them leaves.
-/

namespace Sys2Proof.Machine

variable {s t : State} {i : Instr}

/-! What a command keeps, and what it can only erase -/

/-- R24, R25: the key and the IV of `t`, with their masks, are those of `s`, or erased. -/
def State.keyKeptOrErased (s t : State) : Prop :=
  (t.key = s.key ∧ t.iv = s.iv ∧ t.keyw = s.keyw ∧ t.ivw = s.ivw) ∨
  (t.key = zeroWords ∧ t.iv = zeroWords ∧ t.keyw = 0#4 ∧ t.ivw = 0#4)

/-- R181: no command writes `BUSY`, `PENDING` or the host's side. -/
theorem exec_host_frame (h : exec i s = .next t) :
    s.sameHostSide t ∧ t.busy = s.busy ∧ t.pending = s.pending := by
  obtain ⟨rfl, -⟩ | ⟨c, -, rfl, -⟩ | ⟨rfl, -⟩ | ⟨rfl, -⟩ | ⟨rfl, -⟩ := exec_cases h
  · exact ⟨⟨rfl, rfl⟩, rfl, rfl⟩
  · exact ⟨⟨rfl, rfl⟩, rfl, rfl⟩
  · exact ⟨⟨rfl, rfl⟩, rfl, rfl⟩
  · exact ⟨⟨rfl, rfl⟩, rfl, rfl⟩
  · simp [State.sameHostSide]

/-- R204: no command raises `CIPHER_SETUP`. -/
theorem err_ne_cipherSetup_of_exec (h : exec i s = .next t) (hs : s.err ≠ .cipherSetup) : t.err ≠ .cipherSetup := by
  obtain ⟨rfl, -⟩ | ⟨c, hc, rfl, -⟩ | ⟨rfl, -⟩ | ⟨rfl, -⟩ | ⟨rfl, -⟩ := exec_cases h
  · exact hs
  · exact hc.2
  · exact nofun
  · exact hs
  · rw [encryptBuffer_err]; exact hs

/-- R163, R184, R202: a command changes the key and the IV only by erasing them. -/
theorem keyKeptOrErased_of_exec (h : exec i s = .next t) : s.keyKeptOrErased t := by
  obtain ⟨rfl, -⟩ | ⟨c, -, rfl, -⟩ | ⟨rfl, -⟩ | ⟨rfl, -⟩ | ⟨rfl, -⟩ := exec_cases h
  · exact .inl ⟨rfl, rfl, rfl, rfl⟩
  · exact .inr ⟨rfl, rfl, rfl, rfl⟩
  · exact .inr ⟨rfl, rfl, rfl, rfl⟩
  · exact .inl ⟨rfl, rfl, rfl, rfl⟩
  · exact .inr (by simp)

/-- A command keeps the canonical form of the buffer, whatever the phase. -/
theorem wf_buf_of_exec (h : exec i s = .next t) (hw : s.buf.wf = true) : t.buf.wf = true := by
  obtain ⟨rfl, -⟩ | ⟨c, -, rfl, -⟩ | ⟨rfl, -⟩ | ⟨rfl, -, hp⟩ | ⟨rfl, -, -, -, hle⟩ := exec_cases h
  · exact hw
  · rfl
  · rfl
  · exact wf_padBuffer (padError_eq_none.1 hp).2.1 hw
  · exact wf_encryptBuffer hle hw

/-- ENCRYPT leaves the bytes from `DATA_LEN` on alone (R161). -/
theorem read_encryptBuffer_outside {j : Nat} (hj : s.dataLen.toNat ≤ j) :
    (encryptBuffer s).buf.read j = s.buf.read j := by
  rw [encryptBuffer_buf, read_encryptBlocks_outside _ (.inr (by omega)), beginCbc_buf]

/-! The statements -/

/-- Settles O42, by what a command can do. -/
theorem commandsKeepTheHostSide : Obligations.CommandsKeepTheHostSide := fun _ _ _ => exec_host_frame

/-- Settles O41, by what a command can do: each update of the state sets the phase that its transition names. -/
theorem legalPhaseTransitions : Obligations.LegalPhaseTransitions := by
  intro i s t h
  obtain ⟨rfl, rfl | ⟨hp, hi⟩⟩ | ⟨c, hc, rfl, hp, hnop, hz, -⟩ | ⟨rfl, rfl⟩ | ⟨rfl, rfl, he⟩ | ⟨rfl, rfl, hp, -⟩ :=
    exec_cases h
  · exact .inr (.inr (.inr (.inr (.inl ⟨rfl, rfl⟩))))
  · exact .inr (.inr (.inr (.inr (.inr ⟨hp, hi, rfl⟩))))
  · exact .inr (.inr (.inr (.inl ⟨hp, hnop, hz, rfl, hc.1⟩)))
  · exact .inr (.inr (.inl ⟨rfl, rfl⟩))
  · exact .inl ⟨(padError_eq_none.1 he).1, rfl, rfl⟩
  · exact .inr (.inl ⟨hp, rfl, encryptBuffer_phase s⟩)

/-- Settles O39: ENCRYPT completes from `PADDED` on its success path alone, and in `ENCRYPTED` it is out of sequence. -/
theorem secondEncryptRejected : Obligations.SecondEncryptRejected := by
  intro s t hp h
  obtain ⟨hn, -⟩ | ⟨-, rfl⟩ := exec_encrypt_next (by simp [hp]) h
  · exact absurd hp hn
  · exact ⟨encryptBuffer_phase s, exec_encrypt_of_ne_padded (by simp) (by simp)⟩

/-- Settles O36: the loop of R161 is `CBC_Encrypt` on the data bytes, and the frame of `encryptBuffer` says the rest. -/
theorem encryptIsCbc : Obligations.EncryptIsCbc := fun s hp h16 hle hw =>
  ⟨encryptBuffer s, exec_encrypt_of_padded hp h16 hle, encryptBuffer_frame s, dataBytes_encryptBuffer h16 hle hw,
    fun _ => read_encryptBuffer_outside⟩

/-- Settles O27: error entry is erasure and the two fields of the error. -/
theorem rejectErasesEverything : Obligations.RejectErasesEverything := fun _ _ => ⟨rfl, fun _ => rfl⟩

/-- Settles O34: outside `REJECTED` the gate of R182 is open, and error entry erases. -/
theorem illegalWordRejects : Obligations.IllegalWordRejects := fun _ _ s hp =>
  ⟨reject .illegalCmd s, exec_illegal_of_ne_rejected hp, rfl, rfl, rfl, rfl, rfl, rfl, rfl, rfl, rfl, rfl, rfl, rfl,
    rfl, ⟨rfl, rfl⟩, fun _ => rfl⟩

end Sys2Proof.Machine
end

section
/-!
The step (43_control.md R181, 70_reset_and_hazards.md R230): the engine step at its two places, the end of the list of
events and a scheduling point, the reset input, and what no step does.
-/

namespace Sys2Proof.Machine

variable {s t : State} {rest : List HostEvent}

/-! The engine step (R181) -/

/-- R181: at the end of the list the engine step runs the command and ends it. -/
theorem step_of_exec (hh : s.host = []) (hb : s.busy = true) (h : exec (decode s.pending) s = .next t) :
    step s = .next (retire t) :=
  (step_of_busy hh hb).trans (runEngine_of_next hb h)

/-- R181: at a scheduling point the engine step runs the command and ends it. -/
theorem step_of_exec_scheduled (hh : s.host = .engineStep :: rest) (hb : s.busy = true)
    (h : exec (decode s.pending) { s with host := rest } = .next t) : step s = .next (retire t) :=
  (step_of_engineStep hh).trans (runEngine_of_next (s := { s with host := rest }) hb h)

/-- R181: at the end of the list a refusal of the command is that of the step. -/
theorem step_of_exec_refused {r : Refusal} (hh : s.host = []) (hb : s.busy = true)
    (h : exec (decode s.pending) s = .refused r) : step s = .refused r :=
  (step_of_busy hh hb).trans (runEngine_of_refused hb h)

/-- R181: at a scheduling point a refusal of the command is that of the step. -/
theorem step_of_exec_scheduled_refused {r : Refusal} (hh : s.host = .engineStep :: rest) (hb : s.busy = true)
    (h : exec (decode s.pending) { s with host := rest } = .refused r) : step s = .refused r :=
  (step_of_engineStep hh).trans (runEngine_of_refused (s := { s with host := rest }) hb h)

/-- R182: a word other than ZEROIZE's decodes to another command. -/
theorem decode_ne_zeroize {v : Word} (h : v ≠ 0x00000003#32) : decode v ≠ .zeroize :=
  fun hd => h ((decode_eq_iff (i := .zeroize) rfl).1 hd)

/-- R29: `BUSY` is bit 0 of `STATUS`, and `PENDING` does not stand in it. -/
theorem status_retire (s : State) : status (retire s) = status s >>> 1 <<< 1 := by
  ext i hi
  cases i with
  | zero => simp [status, busyBit]
  | succ i => simp [status, busyBit, Nat.add_comm 1 i, hi]

/-! Writes of the host (R57) -/

/-- R57: outside `IDLE` a write of the host keeps the key and the IV. -/
theorem keyKeptOrErased_busWrite32 (hp : s.phase ≠ .idle) (off : Nat) (v : Word) :
    s.keyKeptOrErased (busWrite32 off v s) := by
  obtain he | ⟨-, -, he⟩ | ⟨-, hidle, -⟩ := busWrite32_cases off v s
  · rw [he]; exact .inl ⟨rfl, rfl, rfl, rfl⟩
  · rw [he]; exact .inl ⟨rfl, rfl, rfl, rfl⟩
  · exact absurd hidle hp

/-- R57: a write of the host keeps the canonical form of the buffer, in every phase. -/
theorem wf_buf_busWrite32 (hw : s.buf.wf = true) (off : Nat) (v : Word) : (busWrite32 off v s).buf.wf = true := by
  obtain he | ⟨-, -, he⟩ | ⟨-, -, ⟨-, he⟩ | ⟨k, -, he⟩ | ⟨k, -, he⟩ | ⟨j, -, he⟩⟩ := busWrite32_cases off v s
  · rw [he]; exact hw
  · rw [he]; exact hw
  · rw [he]; exact hw
  · rw [he]; exact hw
  · rw [he]; exact hw
  · rw [he]; exact wf_writeBytes_lanes hw j v

/-! The statements -/

/-- Settles O6, by the outcome of the command and the place of the step. -/
theorem stepRunsPendingCommand : Obligations.StepRunsPendingCommand :=
  ⟨fun _ _ => step_of_exec, fun _ _ _ => step_of_exec_scheduled, fun _ _ => step_of_exec_refused,
    fun _ _ _ => step_of_exec_scheduled_refused⟩

/-- Settles O7: `withFetchWord` lists a scheduling point before the events of `s`, with the word pending. -/
theorem placedCommandRunsNext : Obligations.PlacedCommandRunsNext := by
  intro s t nbits w i hd he
  have hi : decode (tableWord nbits w) = i := by
    unfold decodeTableWord at hd
    split at hd
    · exact Option.some.inj hd
    · exact nomatch hd
  subst hi
  exact step_of_exec_scheduled (s := s.withFetchWord nbits w) (placeCommand_host s _) (placeCommand_busy s _) he

/-- Settles O8: the scheduler asks for `BUSY = 1` at a scheduling point, and without a pending command the last state
stays. -/
theorem engineStepNeedsBusy : Obligations.EngineStepNeedsBusy := by
  refine ⟨fun s rest hh hb => ?_, fun s => step_of_idle⟩
  rw [step_of_engineStep hh, runEngine, if_neg (by simp [hb])]

/-- Settles O9: the command completes by the invariant, and leaves the host's side to the end of the step, which clears
`BUSY` and `PENDING`. -/
theorem pendingCommandCompletes : Obligations.PendingCommandCompletes := by
  intro s h hh hb
  obtain ⟨t, ht⟩ := exists_exec_eq_next h (decode s.pending)
  obtain ⟨⟨hhost, hresp⟩, -⟩ := exec_host_frame ht
  exact ⟨retire t, step_of_exec hh hb ht, rfl, rfl, hhost.trans hh, hresp⟩

/-- Settles O30: the word decodes to a command other than ZEROIZE, which has no effect in `REJECTED`. -/
theorem rejectedIgnoresOtherWords : Obligations.RejectedIgnoresOtherWords := by
  intro s hp hne
  have hz := decode_ne_zeroize hne
  exact ⟨exec_of_rejected hp hz, fun hh hb => step_of_exec hh hb (exec_of_rejected hp hz),
    fun rest hh hb => step_of_exec_scheduled hh hb (exec_of_rejected hp hz)⟩

/-- Settles O32: the word 0 runs NOP, which keeps the state, at both places of the engine step. -/
theorem nopHasNoEffect : Obligations.NopHasNoEffect := by
  refine ⟨rfl, fun _ => rfl, fun s hh hb hpend => ⟨?_, fun hst => ?_⟩, fun s rest hh hb hpend => ?_⟩
  · have he : exec (decode s.pending) s = .next s := by rw [hpend]; rfl
    exact step_of_exec hh hb he
  · have hbit := status_retire s
    rw [hst] at hbit
    exact hbit
  · have he : exec (decode s.pending) { s with host := rest } = .next { s with host := rest } := by rw [hpend]; rfl
    exact step_of_exec_scheduled hh hb he

/-- Settles O33: the word 3 runs ZEROIZE at both places, and the end of the step clears the rest of the block. -/
theorem zeroizeStartsNewRun : Obligations.ZeroizeStartsNewRun := by
  refine ⟨rfl, fun _ => rfl, fun s hh hb hpend => ?_, fun s rest hh hb hpend => ?_⟩
  · have he : exec (decode s.pending) s = .next (startNewRun s) := by rw [hpend]; rfl
    rw [step_of_exec hh hb he, retire_startNewRun, hh]; rfl
  · have he : exec (decode s.pending) { s with host := rest } = .next (startNewRun { s with host := rest }) := by
      rw [hpend]; rfl
    rw [step_of_exec_scheduled hh hb he, retire_startNewRun]

/-- Settles O29: only a command that raises an error writes `ERR` with a code other than `NONE`. -/
theorem cipherSetupNeverRaised : Obligations.CipherSetupNeverRaised := by
  intro s t h
  contrapose
  intro hs
  obtain ⟨-, -, rfl⟩ | ⟨u, hu, -, -, w, hw, rfl⟩ | ⟨_, _, rest, -, r, rfl⟩ | ⟨_, off, v, rest, -, rfl | rfl⟩ |
    ⟨rest, -, rfl⟩ := step_cases h
  · exact hs
  · have hus : u.err ≠ .cipherSetup := by rw [hu]; exact hs
    rw [retire_err]
    exact err_ne_cipherSetup_of_exec hw hus
  · exact hs
  · exact hs
  · rw [(busWrite32_phase_err off v _).2]; exact hs
  · exact nofun

/-- Settles O26: outside `IDLE` a write of the host reaches no input, and a command or a reset erases or keeps. -/
theorem keyImmutableAfterPad : Obligations.KeyImmutableAfterPad := by
  intro s t hp h
  obtain ⟨-, -, rfl⟩ | ⟨u, hu, -, -, w, hw, rfl⟩ | ⟨_, _, rest, -, r, rfl⟩ | ⟨_, off, v, rest, -, rfl | rfl⟩ |
    ⟨rest, -, rfl⟩ := step_cases h
  · exact .inl ⟨rfl, rfl, rfl, rfl⟩
  · have hkept := keyKeptOrErased_of_exec hw
    rw [hu] at hkept
    exact hkept
  · exact .inl ⟨rfl, rfl, rfl, rfl⟩
  · exact .inl ⟨rfl, rfl, rfl, rfl⟩
  · exact keyKeptOrErased_busWrite32 (s := { s with host := rest }) hp off v
  · exact .inr ⟨rfl, rfl, rfl, rfl⟩

/-- Settles O47: commands and writes of the host keep the canonical form, and reset empties the list of cells. -/
theorem stepKeepsBufferCanonical : Obligations.StepKeepsBufferCanonical := by
  intro s t hw h
  obtain ⟨-, -, rfl⟩ | ⟨u, hu, -, -, w, he, rfl⟩ | ⟨_, _, rest, -, r, rfl⟩ | ⟨_, off, v, rest, -, rfl | rfl⟩ |
    ⟨rest, -, rfl⟩ := step_cases h
  · exact hw
  · have hwu : u.buf.wf = true := by rw [hu]; exact hw
    rw [retire_buf]
    exact wf_buf_of_exec he hwu
  · exact hw
  · exact hw
  · exact wf_buf_busWrite32 (s := { s with host := rest }) hw off v
  · rfl

/-- Settles O43: reset is a state of zeros, and the reset input leaves it but for the host's side. -/
theorem resetClearsEverything : Obligations.ResetClearsEverything := by
  refine ⟨?_, fun s rest h => step_of_reset h⟩
  exact ⟨rfl, rfl, rfl, rfl, rfl, rfl, rfl, rfl, rfl, rfl, fun _ => rfl, rfl, rfl, rfl, rfl⟩

end Sys2Proof.Machine
end

section
/-!
The bus (10_state.md R24, R25, R29, R38; 20_memory.md R50 to R61): the fields of `STATUS`, byte lanes, and what a read
and a write of the host answer and leave.
-/

namespace Sys2Proof.Machine

variable {s : State} {v : Word} {rest : List HostEvent}

/-! A word made of fields (R29, R53) -/

/-- A field of a word, read at its place. -/
@[simp] theorem extract_field_same {w k : Nat} (x : BitVec w) (h : k + w ≤ 32) :
    (x.setWidth 32 <<< k).extractLsb' k w = x := by
  ext i hi
  simp [show k + i < 32 by omega, BitVec.getLsbD_eq_getElem hi]

/-- Outside its place a field of a word has no bit. -/
@[simp] theorem extract_field_other {w k j n : Nat} (x : BitVec w) (h : j + n ≤ k ∨ k + w ≤ j) :
    (x.setWidth 32 <<< k).extractLsb' j n = 0#n := by
  ext i hi
  have hbit : k ≤ j + i → x.getLsbD (j + i - k) = false := fun _ => BitVec.getLsbD_of_ge x _ (by omega)
  simp +contextual [hbit]

/-- A field at the low end of a word, read at its place. -/
@[simp] theorem extract_setWidth_same {w : Nat} (x : BitVec w) (h : w ≤ 32) : (x.setWidth 32).extractLsb' 0 w = x := by
  simpa using extract_field_same (k := 0) x (by omega)

/-- Past its end a field at the low end of a word has no bit. -/
@[simp] theorem extract_setWidth_other {w j n : Nat} (x : BitVec w) (h : w ≤ j) :
    (x.setWidth 32).extractLsb' j n = 0#n := by
  simpa using extract_field_other (k := 0) x (j := j) (n := n) (.inr (by omega))

/-- R29, R30: bits 7..4. -/
theorem status_err (s : State) : (status s).extractLsb' 4 4 = errBits s.err := by
  simp [status, BitVec.extractLsb'_or]

theorem status_keyw (s : State) : (status s).extractLsb' 8 4 = s.keyw := by
  simp [status, BitVec.extractLsb'_or]

theorem status_ivw (s : State) : (status s).extractLsb' 12 4 = s.ivw := by
  simp [status, BitVec.extractLsb'_or]

theorem status_bit3 (s : State) : (status s).extractLsb' 3 1 = 0#1 := by
  simp [status, BitVec.extractLsb'_or]

theorem status_high (s : State) : (status s).extractLsb' 16 16 = 0#16 := by
  simp [status, BitVec.extractLsb'_or]

/-! Byte lanes (R53) -/

theorem lane_wordOfLanes (b0 b1 b2 b3 : Byte) (i : Fin 4) :
    lane (wordOfLanes b0 b1 b2 b3) i.val = #v[b0, b1, b2, b3][i] := by
  fin_cases i
  · simp [lane, wordOfLanes, BitVec.extractLsb'_or]
  · simp [lane, wordOfLanes, BitVec.extractLsb'_or]
  · simp [lane, wordOfLanes, BitVec.extractLsb'_or]
  · simp [lane, wordOfLanes, BitVec.extractLsb'_or]

/-- A word is determined by its four lanes: its bit `k` is bit `k % 8` of lane `k / 8`. -/
theorem word_ext {v w : Word} (h : ∀ i : Fin 4, lane v i.val = lane w i.val) : v = w := by
  ext k hk
  have hbit := congrArg (·.getLsbD (k % 8)) (h ⟨k / 8, by omega⟩)
  simpa [lane, Nat.mod_lt, Nat.div_add_mod, BitVec.getLsbD_eq_getElem hk] using hbit

/-- R53: the four lanes of a word are its bytes in order. -/
theorem getElem_lanes (v : Word) (i : Fin 4) : (lanes v)[i.val]'i.isLt = lane v i.val := by
  fin_cases i <;> rfl

/-- R24, R25, R54: byte `4k + i` of four words is lane `i` of word `k`. -/
theorem bytesOfWords_add_mul (ws : Vector Word 4) (k i : Fin 4) :
    (bytesOfWords ws)[4 * k.val + i.val] = ws[k].extractLsb' (8 * i.val) 8 := by
  have hdiv : (4 * k.val + i.val) / 4 = k.val := by omega
  have hmod : (4 * k.val + i.val) % 4 = i.val := by omega
  simp only [getElem_bytesOfWords, hdiv, hmod, lane, Fin.getElem_fin]

/-! Reads (R56) -/

/-- R53, R56: a lane of a buffer word is the byte put there. -/
theorem lane_busRead32_bufw (hb : s.busy = false) (j : Fin 64) (i : Fin 4) :
    lane (busRead32 (0x100 + 4 * j.val) s) i.val = s.buf.read (4 * j.val + i.val) := by
  rw [busRead32_of_not_busy hb, registerAt_bufw, registerValue, lane_wordOfLanes]
  fin_cases i <;> rfl

/-- R24, R25, R56: the value of a read does not look at the key, the IV or the hidden state. -/
theorem busRead32_setSecrets (off : Nat) (s : State) (key iv : Vector Word 4) (rk : Vector Block 11) (chain : Block)
    (st : AesState) :
    busRead32 off { s with key := key, iv := iv, rk := rk, chain := chain, st := st } = busRead32 off s := by
  have hstatus : status { s with key := key, iv := iv, rk := rk, chain := chain, st := st } = status s := rfl
  simp only [busRead32, hstatus]
  cases registerAt off <;> rfl

/-! Writes (R57) -/

/-- R57: in `IDLE` a buffer word write stores the lanes of the word. -/
theorem busWrite32_bufw (hb : s.busy = false) (hp : s.phase = .idle) (j : Fin 64) (v : Word) :
    busWrite32 (0x100 + 4 * j.val) v s = { s with buf := s.buf.writeBytes (4 * j.val) (lanes v) } := by
  rw [busWrite32_of_not_busy hb, registerAt_bufw]
  exact if_pos hp

/-- R57: in `IDLE` a write to `MSG_LEN` sets it. -/
theorem busWrite32_msgLen (hb : s.busy = false) (hp : s.phase = .idle) (v : Word) :
    busWrite32 0x008 v s = { s with msgLen := v } := by
  rw [busWrite32_of_not_busy hb, registerAt_msgLen]
  exact if_pos hp

/-- R31, R57: in `IDLE` a write to a word of the key sets it and marks it as written. -/
theorem busWrite32_key (hb : s.busy = false) (hp : s.phase = .idle) (k : Fin 4) (v : Word) :
    busWrite32 (0x010 + 4 * k.val) v s = { s with key := s.key.set k v, keyw := markWritten s.keyw k } := by
  rw [busWrite32_of_not_busy hb, registerAt_key]
  exact if_pos hp

/-- R31, R57: in `IDLE` a write to a word of the IV sets it and marks it as written. -/
theorem busWrite32_iv (hb : s.busy = false) (hp : s.phase = .idle) (k : Fin 4) (v : Word) :
    busWrite32 (0x020 + 4 * k.val) v s = { s with iv := s.iv.set k v, ivw := markWritten s.ivw k } := by
  rw [busWrite32_of_not_busy hb, registerAt_iv]
  exact if_pos hp

/-- R53: the bytes that a buffer word write stores. -/
theorem read_writeBytes_lanes {m : Memory} (hw : m.wf = true) (j : Fin 64) (i : Fin 4) (v : Word) :
    (m.writeBytes (4 * j.val) (lanes v)).read (4 * j.val + i.val) = lane v i.val := by
  have hi : i.val < (lanes v).length := i.isLt
  exact (Memory.read_writeBytes_inside hi (by rw [length_lanes]; omega) hw).trans (getElem_lanes v i)

/-- R38: no write of the host touches `DATA_LEN` or the hidden state. -/
theorem busWrite32_hidden (off : Nat) (v : Word) (s : State) :
    (busWrite32 off v s).dataLen = s.dataLen ∧ (busWrite32 off v s).rk = s.rk ∧
      (busWrite32 off v s).chain = s.chain ∧ (busWrite32 off v s).st = s.st := by
  obtain h | ⟨-, -, h⟩ | ⟨-, -, ⟨-, h⟩ | ⟨k, -, h⟩ | ⟨k, -, h⟩ | ⟨j, -, h⟩⟩ := busWrite32_cases off v s <;>
    rw [h] <;> exact ⟨rfl, rfl, rfl, rfl⟩

/-- R242: a write of the host gets no response. -/
theorem busWrite32_responses (off : Nat) (v : Word) (s : State) : (busWrite32 off v s).responses = s.responses := by
  obtain h | ⟨-, -, h⟩ | ⟨-, -, ⟨-, h⟩ | ⟨k, -, h⟩ | ⟨k, -, h⟩ | ⟨j, -, h⟩⟩ := busWrite32_cases off v s <;>
    simp [h]

/-- R57: the step on a buffer word write in `IDLE`. -/
theorem step_of_bufw_write (hb : s.busy = false) (hp : s.phase = .idle) {j : Fin 64}
    (h : s.host = .write 32 (0x100 + 4 * j.val) v :: rest) :
    step s = .next { s with host := rest, buf := s.buf.writeBytes (4 * j.val) (lanes v) } := by
  rw [step_of_aligned_write h (by omega) (by omega), busWrite32_bufw (s := { s with host := rest }) hb hp]

/-! The statements -/

/-- Settles O10: `STATUS` is made of its fields, and the codes of `PHASE` and `ERR` are a table each. -/
theorem statusFields : Obligations.StatusFields := by
  intro s
  refine ⟨?_, ?_, status_bit3 s, ?_, status_keyw s, status_ivw s, status_high s⟩
  · rw [status_busy]
    cases s.busy <;> rfl
  · rw [status_phase]
    cases s.phase <;> rfl
  · rw [status_err]
    cases s.err <;> rfl

/-- Settles O13: a lane of the word read is the byte put there. -/
theorem bufferWordLanes : Obligations.BufferWordLanes := fun _ j i hb => lane_busRead32_bufw hb j i

/-- Settles O15: an aligned access of the region is performed, and a write adds no response. -/
theorem goodAccessIsNoBusError : Obligations.GoodAccessIsNoBusError :=
  ⟨fun _ _ _ h hoff ha => ⟨_, _, step_of_aligned_read h hoff ha, rfl⟩,
    fun _ _ _ _ h hoff ha => ⟨_, step_of_aligned_write h hoff ha, busWrite32_responses _ _ _⟩⟩

/-- Settles O16: membership in the region is decided before width and alignment, and an offset is the distance of an
address from the base. -/
theorem outsideTheRegionRefused : Obligations.OutsideTheRegionRefused := by
  refine ⟨fun s width off rest h hoff => ?_, fun s width off v rest h hoff => ?_, fun addr off => ?_⟩
  · rw [step_of_read h, hostRead, access_outside hoff]
  · rw [step_of_write h, hostWrite, access_outside hoff]
  · simp only [regionOffset, Config.regionBytes]
    split
    · rw [Option.some_inj]
      omega
    · simp only [reduceCtorEq, false_iff]
      omega

/-- Settles O17: a completed read answers a value that does not look at the secrets, or a bus error. -/
theorem readsRevealNoKey : Obligations.ReadsRevealNoKey := by
  intro s t key iv rk chain st width off rest h hs
  rw [step_of_read h] at hs
  rw [step_of_read (s := { s with key := key, iv := iv, rk := rk, chain := chain, st := st }) h]
  by_cases hout : 0x200 ≤ off
  · rw [hostRead, access_outside hout] at hs
    exact nomatch hs
  by_cases hbad : width ≠ 32 ∨ off % 4 ≠ 0
  · rw [hostRead, access_bad (by omega) hbad] at hs ⊢
    obtain rfl := Host.Outcome.next.inj hs
    rfl
  · obtain ⟨rfl, ha⟩ : width = 32 ∧ off % 4 = 0 := by omega
    rw [hostRead, access_good (by omega) ha] at hs ⊢
    obtain rfl := Host.Outcome.next.inj hs
    rw [busRead32_setSecrets off { s with host := rest }]
    rfl

/-- Settles O19, register by register. -/
theorem idleWriteEffects : Obligations.IdleWriteEffects := by
  refine fun s v rest hb hp => ⟨fun h => ?_, fun k h => ?_, fun k h => ?_⟩
  · rw [step_of_aligned_write h (by decide) (by decide), busWrite32_msgLen (s := { s with host := rest }) hb hp]
  · rw [step_of_aligned_write h (by omega) (by omega), busWrite32_key (s := { s with host := rest }) hb hp,
      markWritten]
  · rw [step_of_aligned_write h (by omega) (by omega), busWrite32_iv (s := { s with host := rest }) hb hp,
      markWritten]

/-- Settles O20: the write stores the four lanes and leaves the bytes outside them alone. -/
theorem bufferWriteStoresLanes : Obligations.BufferWriteStoresLanes := fun s v j _ hb hp hw h =>
  ⟨_, step_of_bufw_write hb hp h, rfl, fun i => read_writeBytes_lanes hw j i v,
    fun _ hn => Memory.read_writeBytes_outside s.buf hn⟩

/-- Settles O23: the lanes stored make the word again, and `MSG_LEN` is one register. -/
theorem readAfterWrite : Obligations.ReadAfterWrite := by
  refine ⟨fun s v j rest hb hp hw h => ?_, fun s v rest hb hp h => ?_⟩
  · obtain ⟨t, ht, hframe, hlanes, -⟩ := bufferWriteStoresLanes s v j _ hb hp hw h
    have hhost : t.host = .read 32 (0x100 + 4 * j.val) :: rest := by rw [hframe]
    have hresp : t.responses = s.responses := by rw [hframe]
    have hbusy : t.busy = false := by rw [hframe]; exact hb
    have hread : busRead32 (0x100 + 4 * j.val) t = v :=
      word_ext fun i => (lane_busRead32_bufw hbusy j i).trans (hlanes i)
    refine ⟨t, _, ht, step_of_aligned_read hhost (by omega) (by omega), ?_⟩
    simp only [hread, hresp]
  · have hread : busRead32 0x008 { s with host := .read 32 0x008 :: rest, msgLen := v } = v :=
      busRead32_of_not_busy hb
    refine ⟨_, _, (idleWriteEffects s v _ hb hp).1 h, step_of_aligned_read rfl (by decide) (by decide), ?_⟩
    simp only [hread]

/-- Settles O25: a read only adds a response, and a write reaches none of these fields. -/
theorem accessesKeepPhaseAndErr : Obligations.AccessesKeepPhaseAndErr := by
  intro s t e rest hs hstep hreset h
  cases e with
  | read width off =>
    rw [step_of_read hs, hostRead] at h
    obtain rfl | ⟨-, -, -, rfl⟩ := access_cases h
    · exact ⟨rfl, rfl, rfl, rfl, rfl, rfl⟩
    · exact ⟨rfl, rfl, rfl, rfl, rfl, rfl⟩
  | write width off v =>
    rw [step_of_write hs, hostWrite] at h
    obtain rfl | ⟨-, -, -, rfl⟩ := access_cases h
    · exact ⟨rfl, rfl, rfl, rfl, rfl, rfl⟩
    · obtain ⟨hphase, herr⟩ := busWrite32_phase_err off v { s with host := rest }
      exact ⟨hphase, herr, busWrite32_hidden off v { s with host := rest }⟩
  | engineStep => exact absurd rfl hstep
  | reset => exact absurd rfl hreset

/-- Settles O24, by the place of a byte in its word; the worked example by evaluation. -/
theorem keyByteOrder : Obligations.KeyByteOrder := by
  refine ⟨fun s => bytesOfWords_add_mul s.key, fun s => bytesOfWords_add_mul s.iv, fun s h => ?_⟩
  rw [keyBytes, h]
  decide

end Sys2Proof.Machine
end

section
/-!
The padding and CBC as functions on byte strings (40_padder.md R100, 42_cbc.md R160, 41_aes_engine.md R136).
-/

namespace Sys2Proof.Machine

/-! The padding (R100) -/

/-- R100: the value of a padding byte does not wrap. -/
theorem toNat_ofNat_padLen (n : Nat) : (BitVec.ofNat 8 (padLen n)).toNat = padLen n := by
  rw [BitVec.toNat_ofNat, padLen_eq]
  omega

/-- R100: the padding is not empty, and its last byte counts it. -/
theorem getLast?_pkcs7 (d : List Byte) : (pkcs7 d).getLast? = some (BitVec.ofNat 8 (padLen d.length)) := by
  have hne : padLen d.length ≠ 0 := by rw [padLen_eq]; omega
  rw [pkcs7, padding, List.getLast?_append, List.getLast?_replicate, if_neg hne, Option.some_or]

/-- R100: the message is what stands before the padding. -/
theorem length_pkcs7_sub_padLen (d : List Byte) : (pkcs7 d).length - padLen d.length = d.length := by
  rw [pkcs7, List.length_append, length_padding, padLen_eq]
  omega

/-- Settles O51: the last byte is the number of padding bytes, and `PKCS7(d)` is `d` and the padding. -/
theorem unpadOfPkcs7 : Obligations.UnpadOfPkcs7 := by
  intro d
  have hv := toNat_ofNat_padLen d.length
  have hlen := padLen_eq d.length
  refine ⟨BitVec.ofNat 8 (padLen d.length), getLast?_pkcs7 d, by omega, by omega, ?_, ?_⟩
  · rw [hv, length_pkcs7_sub_padLen, pkcs7, List.take_left]
  · rw [hv, length_pkcs7_sub_padLen, pkcs7, List.drop_left, padding]

/-! CBC (R160) -/

/-- R160: each ciphertext block but the first is chained from the one before it. -/
theorem getElem?_cbcChain_succ (rk : Vector Block 11) (iv : Block) (ps : List Block) {i : Nat} {c : Block}
    (h : i + 1 < ps.length) (hc : (cbcChain rk iv ps)[i]? = some c) :
    (cbcChain rk iv ps)[i + 1]? = some (aesEncrypt rk (xorBlock ps[i + 1] c)) := by
  induction ps generalizing iv i with
  | nil => exact absurd h (Nat.not_lt_zero _)
  | cons p ps ih =>
    rw [List.length_cons] at h
    cases i with
    | zero =>
      obtain ⟨q, qs, rfl⟩ := List.exists_cons_of_length_pos (l := ps) (by omega)
      obtain rfl := Option.some.inj hc
      rfl
    | succ i =>
      rw [cbcChain, List.getElem?_cons_succ] at hc ⊢
      exact ih _ (by omega) hc

/-- Settles O58, by induction on the blocks, from the running chain value. -/
theorem cbcChaining : Obligations.CbcChaining := by
  refine fun rk iv ps => ⟨length_cbcChain rk iv ps, fun h => ?_, fun i c h => getElem?_cbcChain_succ rk iv ps h⟩
  obtain ⟨p, ps, rfl⟩ := List.exists_cons_of_length_pos h
  rfl

/-- R8: exclusive or with zeros changes nothing. -/
theorem xorBlock_zeroBlock (b : Block) : xorBlock b zeroBlock = b :=
  Vector.ext fun i hi => by simp [zeroBlock]

/-- Settles O60: the head of the output is its first block, which is chained from the IV. -/
theorem zeroIvFirstBlockIsAes : Obligations.ZeroIvFirstBlockIsAes := by
  intro key p hlen h16
  obtain ⟨n, hn⟩ : ∃ n, p.length / 16 = n + 1 := ⟨p.length / 16 - 1, by omega⟩
  rw [cbcEncrypt, Config.blockSize, hn, blocksOf, cbcChain, xorBlock_zeroBlock, List.flatMap_cons,
    List.take_left' (Vector.length_toList)]

end Sys2Proof.Machine
end

section
/-!
Multiplication in GF(2^8) (41_aes_engine.md R121, R122): `xtime` is linear, so the loop of the multiplication is linear
in each operand.
-/

namespace Sys2Proof.Machine

/-- R122: `xtime` is a shift, with 0x1B added where the shift drops a bit. -/
theorem xtime_eq (b : Byte) : xtime b = (b <<< 1) ^^^ (if b[7] then 0x1b#8 else 0x00#8) := by
  revert b
  decide +kernel

/-- R121, R122: `xtime` distributes over the addition of the field. -/
theorem xtime_xor (a b : Byte) : xtime (a ^^^ b) = xtime a ^^^ xtime b := by
  have hcarry : (if (a ^^^ b)[7] then 0x1b#8 else 0x00#8) =
      (if a[7] then 0x1b#8 else 0x00#8) ^^^ (if b[7] then 0x1b#8 else 0x00#8) := by
    rw [BitVec.getElem_xor]
    cases a[7] <;> cases b[7] <;> rfl
  rw [xtime_eq, xtime_eq, xtime_eq, hcarry, BitVec.shiftLeft_xor_distrib]
  ac_rfl

/-- R122: the loop is linear in the multiplicand and the partial sum together. -/
theorem gfMulLoop_xor_left (c : Byte) (n i : Nat) (a a' r r' : Byte) :
    gfMulLoop c n i (a ^^^ a') (r ^^^ r') = gfMulLoop c n i a r ^^^ gfMulLoop c n i a' r' := by
  induction n generalizing i a a' r r' with
  | zero => rfl
  | succ n ih =>
    rw [gfMulLoop, gfMulLoop, gfMulLoop, xtime_xor, ← ih]
    congr 1
    split
    · ac_rfl
    · rfl

/-- R122: the loop is linear in the multiplier and the partial sum together. -/
theorem gfMulLoop_xor_right (b c : Byte) (n i : Nat) (a r r' : Byte) :
    gfMulLoop (b ^^^ c) n i a (r ^^^ r') = gfMulLoop b n i a r ^^^ gfMulLoop c n i a r' := by
  induction n generalizing i a r r' with
  | zero => rfl
  | succ n ih =>
    rw [gfMulLoop, gfMulLoop, gfMulLoop, ← ih, BitVec.getLsbD_xor]
    congr 1
    have hself : (r ^^^ a) ^^^ (r' ^^^ a) = r ^^^ r' :=
      calc (r ^^^ a) ^^^ (r' ^^^ a) = (r ^^^ r') ^^^ (a ^^^ a) := by ac_rfl
        _ = r ^^^ r' := by rw [BitVec.xor_self, BitVec.xor_zero]
    cases b.getLsbD i with
    | false =>
      cases c.getLsbD i with
      | false => rfl
      | true => exact BitVec.xor_assoc r r' a
    | true =>
      cases c.getLsbD i with
      | false => exact (by ac_rfl : (r ^^^ r') ^^^ a = (r ^^^ a) ^^^ r')
      | true => exact hself.symm

theorem gfMul_xor_left (a b c : Byte) : gfMul (a ^^^ b) c = gfMul a c ^^^ gfMul b c :=
  gfMulLoop_xor_left c 8 0 a b 0#8 0#8

theorem gfMul_xor_right (a b c : Byte) : gfMul a (b ^^^ c) = gfMul a b ^^^ gfMul a c :=
  gfMulLoop_xor_right b c 8 0 a 0#8 0#8

theorem gfMul_one (a : Byte) : gfMul 0x01#8 a = a := by
  revert a
  decide +kernel

theorem gfMul_two (a : Byte) : gfMul 0x02#8 a = xtime a := by
  revert a
  decide +kernel

theorem gfMul_three (a : Byte) : gfMul 0x03#8 a = xtime a ^^^ a := by
  rw [show 0x03#8 = 0x02#8 ^^^ 0x01#8 from rfl, gfMul_xor_left, gfMul_two, gfMul_one]

/-- Settles O53: both operands by induction on the loop, `{03}` from `{02}` and `{01}`, the examples by evaluation. -/
theorem gfMulIsBilinear : Obligations.GfMulIsBilinear :=
  ⟨gfMul_xor_left, gfMul_xor_right, fun a => ⟨gfMul_one a, gfMul_two a, gfMul_three a⟩, by decide, by decide, by decide⟩

end Sys2Proof.Machine
end

section
/-!
The key schedule (41_aes_engine.md R125 to R127): the loop of the key expansion keeps the words it has, and appends
words that are each made from two of those before it.
-/

namespace Sys2Proof.Machine

/-- A word of a list is there whatever is appended. -/
theorem wordAt_append {ws ws' : List AesWord} {k : Nat} (h : k < ws.length) : wordAt (ws ++ ws') k = wordAt ws k := by
  rw [wordAt, wordAt, List.getD_append _ _ _ _ h]

/-- The word appended to a list. -/
theorem wordAt_concat (ws : List AesWord) (w : AesWord) : wordAt (ws ++ [w]) ws.length = w := by
  simp [wordAt]

/-- R127: the loop appends one word a step. -/
@[simp] theorem length_expandLoop (n i : Nat) (ws : List AesWord) : (expandLoop n i ws).length = ws.length + n := by
  induction n generalizing i ws with
  | zero => rfl
  | succ n ih => rw [expandLoop, ih, List.length_append, List.length_singleton]; omega

/-- R127: the loop keeps the words it starts from. -/
theorem wordAt_expandLoop_of_lt (n i : Nat) {ws : List AesWord} {k : Nat} (h : k < ws.length) :
    wordAt (expandLoop n i ws) k = wordAt ws k := by
  induction n generalizing i ws with
  | zero => rfl
  | succ n ih =>
    rw [expandLoop, ih _ (by rw [List.length_append]; omega), wordAt_append h]

/-- R127: each word that the loop appends is made from the words one and four places before it. -/
theorem wordAt_expandLoop {n k : Nat} {ws : List AesWord} (hpos : 4 ≤ ws.length) (hlo : ws.length ≤ k)
    (hhi : k < ws.length + n) :
    wordAt (expandLoop n ws.length ws) k = scheduleWord k (wordAt (expandLoop n ws.length ws) (k - 4))
      (wordAt (expandLoop n ws.length ws) (k - 1)) := by
  induction n generalizing ws with
  | zero => omega
  | succ n ih =>
    obtain ⟨w, hw⟩ : ∃ w, w = scheduleWord ws.length (wordAt ws (ws.length - 4)) (wordAt ws (ws.length - 1)) := ⟨_, rfl⟩
    have hlen : (ws ++ [w]).length = ws.length + 1 := by rw [List.length_append, List.length_singleton]
    rw [expandLoop, ← hw, ← hlen]
    by_cases hk : k = ws.length
    · subst hk
      rw [wordAt_expandLoop_of_lt n _ (by omega), wordAt_expandLoop_of_lt n _ (by omega),
        wordAt_expandLoop_of_lt n _ (by omega), wordAt_concat, wordAt_append (by omega), wordAt_append (by omega), hw]
    · exact ih (by omega) (by omega) (by omega)

theorem length_scheduleWords (key : Block) : (scheduleWords key).length = 44 := length_expandLoop 40 4 (keyWords key)

/-- R127: the first four words are the key. -/
theorem getElem_wordAt_scheduleWords (key : Block) (i j : Fin 4) :
    (wordAt (scheduleWords key) i.val)[j] = key[4 * i.val + j.val] := by
  rw [scheduleWords, wordAt_expandLoop_of_lt 40 4 (ws := keyWords key) i.isLt]
  fin_cases i <;> fin_cases j <;> rfl

/-- R127: the recurrence of the key schedule. -/
theorem wordAt_scheduleWords (key : Block) {i : Nat} (hlo : 4 ≤ i) (hhi : i < 44) :
    wordAt (scheduleWords key) i =
      scheduleWord i (wordAt (scheduleWords key) (i - 4)) (wordAt (scheduleWords key) (i - 1)) :=
  wordAt_expandLoop (ws := keyWords key) (n := 40) (le_refl 4) hlo hhi

/-- R127: byte `4c + i` of round key `r` is byte `i` of word `4r + c`. -/
theorem getElem_keyExpansion (key : Block) (r : Fin 11) (c i : Fin 4) :
    (keyExpansion key)[r][4 * c.val + i.val] = (wordAt (scheduleWords key) (4 * r.val + c.val))[i] := by
  have hdiv : (4 * c.val + i.val) / 4 = c.val := by omega
  have hmod : (4 * c.val + i.val) % 4 = i.val := by omega
  simp only [keyExpansion, Fin.getElem_fin, Vector.getElem_ofFn, hdiv, hmod]

/-- Settles O54: the operations on words by their elements, `Rcon` by evaluation, the words by the loop that makes
them. -/
theorem keyScheduleRecurrence : Obligations.KeyScheduleRecurrence :=
  ⟨fun w i => ⟨rfl, getElem_subWord w i.val i.isLt⟩, fun a b i => getElem_xorWord a b i.val i.isLt, by decide,
    fun key => ⟨length_scheduleWords key, getElem_wordAt_scheduleWords key, fun _ => wordAt_scheduleWords key,
      getElem_keyExpansion key⟩⟩

end Sys2Proof.Machine
end

section
/-!
The rounds of AES (41_aes_engine.md R129 to R133): the four transformations byte by byte, the order of the rounds, and
that each transformation can be undone, so that the cipher is a permutation of the blocks.
-/

namespace Sys2Proof.Machine

/-! The transformations byte by byte -/

/-- R129: the round key `RK[n]` of the key schedule is added as the words `w[4n + c]`, one per column. -/
theorem getElem_addRoundKey_keyExpansion (key : Block) (s : AesState) (n : Fin 11) (r c : Fin 4) :
    (addRoundKey (keyExpansion key)[n] s)[r][c] =
      s[r][c] ^^^ (wordAt (scheduleWords key) (4 * n.val + c.val))[r] := by
  have hkey := getElem_keyExpansion key n c r
  simp only [Nat.add_comm (4 * c.val)] at hkey
  rw [← hkey]
  exact getElem_addRoundKey _ s r.val c.val r.isLt c.isLt

/-- R132: the four equations of MixColumns. -/
theorem mixColumns_column (s : AesState) (c : Fin 4) :
    (mixColumns s)[0][c] = gfMul 0x02#8 s[0][c] ^^^ gfMul 0x03#8 s[1][c] ^^^ s[2][c] ^^^ s[3][c] ∧
    (mixColumns s)[1][c] = s[0][c] ^^^ gfMul 0x02#8 s[1][c] ^^^ gfMul 0x03#8 s[2][c] ^^^ s[3][c] ∧
    (mixColumns s)[2][c] = s[0][c] ^^^ s[1][c] ^^^ gfMul 0x02#8 s[2][c] ^^^ gfMul 0x03#8 s[3][c] ∧
    (mixColumns s)[3][c] = gfMul 0x03#8 s[0][c] ^^^ s[1][c] ^^^ s[2][c] ^^^ gfMul 0x02#8 s[3][c] := by
  simp [mixColumn]

/-- R133: a run of `AES_Encrypt` round by round, whatever names its states. -/
theorem aesEncrypt_of_rounds {rk : Vector Block 11} {b : Block} {S : Nat → AesState}
    (h0 : S 0 = addRoundKey rk[0] (loadState b))
    (hS : ∀ r : Fin 9, S (r.val + 1) = addRoundKey rk[r.val + 1] (mixColumns (shiftRows (subBytes (S r.val))))) :
    aesEncrypt rk b = storeState (addRoundKey rk[10] (shiftRows (subBytes (S 9)))) := by
  have hround (r : Nat) (hr : r < 9) : aesRound rk[r + 1] (S r) = S (r + 1) := (hS ⟨r, hr⟩).symm
  have h9 : [rk[1], rk[2], rk[3], rk[4], rk[5], rk[6], rk[7], rk[8], rk[9]].foldl (fun s k => aesRound k s) (S 0) =
      S 9 := by
    simp only [List.foldl_cons, List.foldl_nil, hround, Nat.reduceAdd, Nat.reduceLT]
  rw [aesEncrypt, aesRounds, ← h0, h9, aesFinalRound]

/-! Undoing a transformation -/

/-- R129: adding a round key twice changes nothing. -/
theorem addRoundKey_addRoundKey (k : Block) (s : AesState) : addRoundKey k (addRoundKey k s) = s :=
  aesState_ext fun r c hr hc => by
    rw [getElem_addRoundKey, getElem_addRoundKey, BitVec.xor_assoc, BitVec.xor_self, BitVec.xor_zero]

theorem addRoundKey_injective (k : Block) : Function.Injective (addRoundKey k) :=
  (show Function.LeftInverse (addRoundKey k) (addRoundKey k) from addRoundKey_addRoundKey k).injective

/-- R123, R124: the table gives the inverse of a byte once the affine map is undone, and the inverse of the inverse is
the byte. -/
theorem affineInv_sbox_affineInv_sbox (x : Byte) : affineInv (sbox (affineInv (sbox x))) = x := by
  revert x
  decide +kernel

theorem sbox_injective : Function.Injective sbox :=
  Function.LeftInverse.injective (g := fun y => affineInv (sbox (affineInv y))) affineInv_sbox_affineInv_sbox

theorem subBytes_injective : Function.Injective subBytes := fun s t h =>
  aesState_ext fun r c hr hc => sbox_injective (by
    rw [← getElem_subBytes s r c hr hc, ← getElem_subBytes t r c hr hc, h])

/-- R131: the byte of row `r` and column `c` has moved to column `c - r`. -/
theorem getElem_shiftRows_sub (s : AesState) {r c : Nat} (hr : r < 4) (hc : c < 4) :
    (shiftRows s)[r][(c + (4 - r)) % 4] = s[r][c] := by
  have hcol : ((c + (4 - r)) % 4 + r) % 4 = c := by omega
  rw [getElem_shiftRows _ _ _ hr]
  simp only [hcol]

theorem shiftRows_injective : Function.Injective shiftRows := fun s t h =>
  aesState_ext fun r c hr hc => by
    rw [← getElem_shiftRows_sub s hr hc, ← getElem_shiftRows_sub t hr hc, h]

/-! A column mixed four times is the column again (R132) -/

theorem byte_xor_left_comm (a b c : Byte) : a ^^^ (b ^^^ c) = b ^^^ (a ^^^ c) := by ac_rfl

/-- A byte of a mixed column, from the byte `a` there, the byte `b` below it and the sum `t` of the column. -/
def mixByte (a b t : Byte) : Byte := a ^^^ t ^^^ xtime (a ^^^ b)

/-- A byte of a column mixed twice: `{04}` times the difference to the byte two rows away is added. -/
def mixTwice (a c : Byte) : Byte := a ^^^ xtime (xtime (a ^^^ c))

/-- R132: a mixed column, byte by byte. -/
theorem mixColumn_eq_mixByte (a b c d : Byte) :
    mixColumn #v[a, b, c, d] = #v[mixByte a b (a ^^^ b ^^^ c ^^^ d), mixByte b c (a ^^^ b ^^^ c ^^^ d),
      mixByte c d (a ^^^ b ^^^ c ^^^ d), mixByte d a (a ^^^ b ^^^ c ^^^ d)] := by
  simp [mixColumn, mixByte, gfMul_two, gfMul_three, xtime_xor, BitVec.xor_assoc, BitVec.xor_comm,
    byte_xor_left_comm]

/-- Mixing keeps the sum of a column. -/
theorem xor_mixByte (a b c d : Byte) :
    mixByte a b (a ^^^ b ^^^ c ^^^ d) ^^^ mixByte b c (a ^^^ b ^^^ c ^^^ d) ^^^
      mixByte c d (a ^^^ b ^^^ c ^^^ d) ^^^ mixByte d a (a ^^^ b ^^^ c ^^^ d) = a ^^^ b ^^^ c ^^^ d := by
  simp [mixByte, xtime_xor, BitVec.xor_assoc, BitVec.xor_comm, byte_xor_left_comm]

theorem mixByte_mixByte (a b c t : Byte) : mixByte (mixByte a b t) (mixByte b c t) t = mixTwice a c := by
  simp [mixByte, mixTwice, xtime_xor, BitVec.xor_assoc, BitVec.xor_comm, byte_xor_left_comm]

theorem mixTwice_mixTwice (a c : Byte) : mixTwice (mixTwice a c) (mixTwice c a) = a := by
  simp [mixTwice, xtime_xor, BitVec.xor_assoc, BitVec.xor_comm]

theorem mixColumn_mixColumn (a b c d : Byte) :
    mixColumn (mixColumn #v[a, b, c, d]) = #v[mixTwice a c, mixTwice b d, mixTwice c a, mixTwice d b] := by
  rw [mixColumn_eq_mixByte, mixColumn_eq_mixByte, xor_mixByte, mixByte_mixByte, mixByte_mixByte, mixByte_mixByte,
    mixByte_mixByte]

/-- R132: mixing a column four times gives it back. -/
theorem mixColumn_four_times (w : AesWord) : mixColumn (mixColumn (mixColumn (mixColumn w))) = w := by
  obtain ⟨a, b, c, d, rfl⟩ : ∃ a b c d, w = #v[a, b, c, d] :=
    ⟨w[0], w[1], w[2], w[3], Vector.ext fun i hi => by
      obtain rfl | rfl | rfl | rfl : i = 0 ∨ i = 1 ∨ i = 2 ∨ i = 3 := by omega
      · rfl
      · rfl
      · rfl
      · rfl⟩
  rw [mixColumn_mixColumn a b c d, mixColumn_mixColumn, mixTwice_mixTwice, mixTwice_mixTwice, mixTwice_mixTwice,
    mixTwice_mixTwice]

theorem mixColumn_injective : Function.Injective mixColumn :=
  Function.LeftInverse.injective (g := fun w => mixColumn (mixColumn (mixColumn w))) mixColumn_four_times

theorem mixColumns_injective : Function.Injective mixColumns := fun s t h =>
  aesState_ext fun r c hr hc => by
    have hmix : mixColumn (column s ⟨c, hc⟩) = mixColumn (column t ⟨c, hc⟩) := Vector.ext fun i hi => by
      rw [← getElem_mixColumns s i c hi hc, ← getElem_mixColumns t i c hi hc, h]
    have hcol := congrArg (·[r]) (mixColumn_injective hmix)
    simpa only [getElem_column] using hcol

/-! The rounds (R133) -/

theorem aesRound_injective (k : Block) : Function.Injective (aesRound k) :=
  (addRoundKey_injective k).comp (mixColumns_injective.comp (shiftRows_injective.comp subBytes_injective))

theorem aesFinalRound_injective (k : Block) : Function.Injective (aesFinalRound k) :=
  (addRoundKey_injective k).comp (shiftRows_injective.comp subBytes_injective)

/-- R133: rounds one after the other, under any round keys. -/
theorem foldl_aesRound_injective (ks : List Block) :
    Function.Injective fun s : AesState => ks.foldl (fun s k => aesRound k s) s := by
  induction ks with
  | nil => exact Function.injective_id
  | cons k ks ih => exact ih.comp (aesRound_injective k)

theorem loadState_injective : Function.Injective loadState :=
  Function.LeftInverse.injective (g := storeState) storeState_loadState

theorem storeState_injective : Function.Injective storeState :=
  Function.LeftInverse.injective (g := loadState) loadState_storeState

theorem aesEncrypt_injective (rk : Vector Block 11) : Function.Injective (aesEncrypt rk) := by
  intro a b h
  rw [aesEncrypt, aesEncrypt] at h
  have hrounds := aesFinalRound_injective rk[10] (storeState_injective h)
  exact loadState_injective (addRoundKey_injective rk[0] (foldl_aesRound_injective _ hrounds))

/-! The statements -/

/-- Settles O57: loading, storing and the four transformations can each be undone. -/
theorem aesEncryptIsInjective : Obligations.AesEncryptIsInjective := fun rk _ _ h => aesEncrypt_injective rk h

/-- Settles O55: the transformations by their elements, the example by evaluation, and the cipher round by round. -/
theorem aesRoundTransformations : Obligations.AesRoundTransformations :=
  ⟨fun k s r c => getElem_addRoundKey k s r.val c.val r.isLt c.isLt, getElem_addRoundKey_keyExpansion,
    fun s r c => getElem_subBytes s r.val c.val r.isLt c.isLt,
    fun s r c => getElem_shiftRows s r.val c.val r.isLt c.isLt, mixColumns_column,
    fun b => ⟨(gfMul_two b).trans (xtime_eq b), by rw [gfMul_three, gfMul_two]⟩, by decide +kernel,
    fun _ _ _ h0 hS => aesEncrypt_of_rounds h0 hS⟩

end Sys2Proof.Machine
end
